-- ==== Sys2Proof/Word.lean ====
section
/-! DEFINITION. The data HFC computes with (00_scope.md rule R11): bytes, the 16-bit length, byte sequences
and their sum as an unbounded natural number. -/

namespace Sys2Proof

/-- A byte, an integer 0..255 (R11). -/
abbrev Byte := BitVec 8

/-- A 16-bit quantity: the length field of a frame and the two counters of RX (R15, R57). -/
abbrev Half := BitVec 16

/-- `Σ s`, the sum of the bytes of `s` as an unbounded natural number (R11). -/
def sumBytes : List Byte → Nat
  | [] => 0
  | b :: s => b.toNat + sumBytes s

end Sys2Proof
end

