-- ==== Sys2Proof/Config.lean ====
section
/-! DEFINITION. The fixed constants of the wire format (00_scope.md rule R5) and the configuration record
(rule R6). HFC has no free value that a rule reads, so this file holds no opaque constant. -/

namespace Sys2Proof

/-- `START_BYTE` (R5). -/
def startByte : Byte := 0x7E

/-- `ESCAPE` (R5). -/
def escapeByte : Byte := 0x7D

/-- `ESC_XOR` (R5). -/
def escXor : Byte := 0x20

/-- The configuration record of R6, with the defaults of R6.
The defaults of `xonByte` and `xoffByte` are marked in the spec as general knowledge (PRESUMED, log entry 9);
those of `maxLen` and `fidSeed` are the spec's own decisions D5 and D19. -/
structure Config where
  /-- `ESC_EN`: escaping on ("API mode 2") or off ("API mode 1"). -/
  escEn : Bool := true
  /-- `XON_BYTE`, read by TX only (R7, R100). -/
  xonByte : Byte := 0x11
  /-- `XOFF_BYTE`, read by TX only (R7, R100). -/
  xoffByte : Byte := 0x13
  /-- `MAX_LEN`, an integer 1..65535: the longest payload TX accepts and RX stores. -/
  maxLen : Nat := 65535
  /-- `FID_SEED`, an integer 1..254: the first frame id after `RESET`. -/
  fidSeed : Nat := 1
deriving DecidableEq, Repr

/-- The record with every member at its default (R6). -/
def Config.default : Config := {}

/-- The ranges of R6: `MAX_LEN` 1..65535 and `FID_SEED` 1..254 (the other members are in range by type). -/
def Config.valid (c : Config) : Bool :=
  decide (1 ≤ c.maxLen) && decide (c.maxLen ≤ 65535) && decide (1 ≤ c.fidSeed) && decide (c.fidSeed ≤ 254)

end Sys2Proof
end

