-- ==== Sys2Proof/Machine/Flags.lean ====
section
/-! DEFINITION. The conditions HFC tests. HFC has no condition codes (10_state.md rule R26): its one persistent flag
is `rx_esc`, and what stands here are the tests that decide between two branches of a rule. -/

namespace Sys2Proof.Machine

/-- Membership in `RSV`, the reserved set (R7). -/
def reserved (cfg : Config) (b : Byte) : Bool :=
  b == startByte || b == escapeByte || b == cfg.xonByte || b == cfg.xoffByte

/-- TX replaces the body byte `b` by its escape pair (R84). -/
def mustEscape (cfg : Config) (b : Byte) : Bool := cfg.escEn && reserved cfg b

/-- An escape is pending: the next wire byte is escaped, whatever it is (R96, R60 row 1). -/
def escapePending (escEn rxEsc : Bool) : Bool := escEn && rxEsc

/-- The wire byte `b` is an escape introducer when no escape is pending (R96, R60 row 2). -/
def introducesEscape (escEn : Bool) (b : Byte) : Bool := escEn && b == escapeByte

/-- The logical byte `v` begins a frame: it is `START_BYTE` and was not produced by unescaping (R98). -/
def isStart (v : Byte) (we : Bool) : Bool := v == startByte && !we

/-- A declared length exceeds `MAX_LEN` (R103). -/
def overlen (cfg : Config) (n : Half) : Bool := decide (cfg.maxLen < n.toNat)

/-- TX refuses a payload longer than `MAX_LEN` (R87). -/
def tooLong (cfg : Config) (p : List Byte) : Bool := decide (cfg.maxLen < p.length)

/-- The checksum test of R107: `(rx_sum + v) mod 256 = 255`. -/
def sumMatches (sum v : Byte) : Bool := (sum.toNat + v.toNat) % 256 == 255

end Sys2Proof.Machine
end

