-- ==== Sys2Proof/Machine/Operands.lean ====
section
/-! DEFINITION. The operand forms of HFC: the slices and joins of the length field, the escape pair, the checksum,
the raw and the wire frame (30_encoding.md rules R55 to R59, 40_tx_encoder.md rules R80 to R86), and the pure
decoder `unescape` (41_rx_assembler.md rule R114). Nothing here reads or writes the state. -/

namespace Sys2Proof.Machine

/-- `b xor 0x20` (R59): the second byte of an escape pair, and what RX recovers from it. -/
def flipEsc (b : Byte) : Byte := b ^^^ escXor

/-- `n[15:8]` (R11). -/
def hiByte (n : Half) : Byte := n.extractLsb' 8 8

/-- `n[7:0]` (R11). -/
def loByte (n : Half) : Byte := n.extractLsb' 0 8

/-- `hi ‖ lo`: the length assembled from its two bytes, high byte first (R39, R57). -/
def joinBytes (hi lo : Byte) : Half := hi ++ lo

/-- `rx_len[15:8] ‖ v` (R103). -/
def setLo (n : Half) (v : Byte) : Half := joinBytes (hiByte n) v

/-- `TX.HEADER(n)` (R82). -/
def header (n : Half) : List Byte := [hiByte n, loByte n]

/-- `TX.CKSUM(p)` (R80). -/
def cksum (p : List Byte) : Byte := BitVec.ofNat 8 (255 - sumBytes p % 256)

/-- The unescaped body of the frame of `p`: length bytes, payload, checksum (R86). -/
def rawBody (p : List Byte) : List Byte := header (BitVec.ofNat 16 p.length) ++ p ++ [cksum p]

/-- The raw frame of `p` (R55). -/
def rawFrameBytes (p : List Byte) : List Byte := startByte :: rawBody p

/-- The escape pair of a byte (R59). -/
def escapePair (b : Byte) : List Byte := [escapeByte, flipEsc b]

/-- `TX.ESC(b)` (R84). -/
def txEscBytes (cfg : Config) (b : Byte) : List Byte := if mustEscape cfg b then escapePair b else [b]

/-- `escape(s)` (R85). -/
def escape (cfg : Config) : List Byte → List Byte
  | [] => []
  | b :: t => txEscBytes cfg b ++ escape cfg t

/-- The wire frame of `p`: the leading `START_BYTE` as it is, then the escaped body (R58, R86). -/
def wireFrame (cfg : Config) (p : List Byte) : List Byte := startByte :: escape cfg (rawBody p)

/-- The loop of R114 with the flag `esc` carried along. -/
def unescapeFrom : Bool → List Byte → List Byte
  | _, [] => []
  | true, b :: s => flipEsc b :: unescapeFrom false s
  | false, b :: s => if b = escapeByte then unescapeFrom true s else b :: unescapeFrom false s

/-- `unescape(s)` (R114). -/
def unescape (escEn : Bool) (s : List Byte) : List Byte := if escEn then unescapeFrom false s else s

end Sys2Proof.Machine
end

