-- ==== Sys2Proof/Syntax.lean ====
section
/-! DEFINITION. The instructions of HFC: one constructor per row of spec/opcode_table.json, in the table's order.
The nine rows of format `host_op` are the operations of 00_scope.md rule R9. The other rows name a piece of the
encoding (30_encoding.md rule R67); each is the stimulus its row describes, presented to the unit at the row's own
stage (DESIGN CHOICE, log entry 1). -/

namespace Sys2Proof

/-- The instructions. The mnemonic of each row stands in its docstring. -/
inductive Instr where
  /-- `RAW_FRAME` (R55): the raw frame of the payload `p`. -/
  | rawFrame (p : List Byte)
  /-- `ESCAPED` (R96, R60 row 1): the wire byte `b` arrives while an escape is pending. -/
  | escaped (b : Byte)
  /-- `ESC_INTRO` (R96, R60 row 2): the wire byte `0x7D` arrives as an escape introducer. -/
  | escIntro
  /-- `START` (R98, R60 row 3): the wire byte `0x7E` arrives and begins a frame. -/
  | start
  /-- `DATA` (R95, R60 row 4): any other wire byte `b` arrives. -/
  | data (b : Byte)
  /-- `ESC_START` (R84): TX sends the body byte `START_BYTE`. -/
  | escStart
  /-- `ESC_ESCAPE` (R84): TX sends the body byte `ESCAPE`. -/
  | escEscape
  /-- `ESC_XON` (R84): TX sends the body byte `XON_BYTE`. -/
  | escXon
  /-- `ESC_XOFF` (R84): TX sends the body byte `XOFF_BYTE`. -/
  | escXoff
  /-- `LITERAL` (R84): TX sends the byte `b`; `lead` says that it stands at raw offset 0. -/
  | literal (lead : Bool) (b : Byte)
  /-- `AWAIT_START` (R101): the logical byte `v` reaches the state interpretation. -/
  | awaitStart (v : Byte)
  /-- `LEN_MSB` (R102): the logical byte `v` is the high byte of the length. -/
  | lenMsb (v : Byte)
  /-- `LEN_LSB` (R103): the logical byte `v` is the low byte of the length. -/
  | lenLsb (v : Byte)
  /-- `PAYLOAD` (R105): the logical byte `v` is a payload byte. -/
  | payload (v : Byte)
  /-- `CHECKSUM` (R107): the logical byte `v` is the checksum byte. -/
  | checksum (v : Byte)
  /-- `NONE` (R95): the wire byte `b` arrives and there is nothing to report. -/
  | evNone (b : Byte)
  /-- `FRAME` (R107): the logical byte `v` is a checksum byte that matches. -/
  | evFrame (v : Byte)
  /-- `DROP_CHECKSUM` (R107): the logical byte `v` is a checksum byte that does not match. -/
  | evDropChecksum (v : Byte)
  /-- `DROP_ABORT` (R98): an unescaped `START_BYTE` arrives before the frame in progress is complete. -/
  | evDropAbort
  /-- `DROP_OVERLEN` (R103): the logical byte `v` completes a declared length above `MAX_LEN`. -/
  | evDropOverlen (v : Byte)
  /-- `TX_REFUSED` (R87): the host asks TX to send a payload `p` longer than `MAX_LEN`. -/
  | evTxRefused (p : List Byte)
  /-- `TX.CKSUM` (R80). -/
  | txCksum (p : List Byte)
  /-- `TX.HEADER` (R82); the operand's range 0..65535 is its type. -/
  | txHeader (n : Half)
  /-- `TX.ESC` (R84). -/
  | txEsc (b : Byte)
  /-- `TX.SEND` (R86). -/
  | txSend (p : List Byte)
  /-- `RX.BYTE` (R95). -/
  | rxByte (b : Byte)
  /-- `RX.CHUNK` (R112). -/
  | rxChunk (bs : List Byte)
  /-- `FID.ALLOC` (R125). -/
  | fidAlloc
  /-- `RESET` (R132). -/
  | reset (cfg : Config)
  /-- `RX.FLUSH` (R134). -/
  | rxFlush
deriving DecidableEq, Repr

/-- The formats of the table's rows (R67); a row of format `tx_byte` is also selected by the byte's position. -/
inductive Format where
  | frame
  | rxByte
  | txByte (lead : Bool)
  | rxState
  | event
deriving DecidableEq, Repr

/-- What is presented to the block. An operation of R9 has no bit pattern (R65), so the host presents it as itself;
a row of another format is presented as the bytes of its encoding under that format (DESIGN CHOICE, log entries 2, 13). -/
inductive Request where
  | host (op : Instr)
  | bits (fmt : Format) (bytes : List Byte)
deriving DecidableEq, Repr

/-- Why a request is no instruction. -/
inductive DecodeError where
  /-- an instruction presented by the host that is none of the nine operations of R9. -/
  | notAHostOp
  /-- an operand outside the range its rule gives (U4, U9). -/
  | operandOutOfRange
  /-- the number of bytes is not the format's. -/
  | wrongLength
  /-- the byte at raw offset 0 is not `START_BYTE` (R55). -/
  | notAStart
  /-- the last byte of a raw frame is not its checksum (R55, R80). -/
  | wrongChecksum
  /-- an `rx_state` code that no state has (R16, U3). -/
  | reservedStateCode
  /-- an event code that no event has (R141). -/
  | reservedEventCode
deriving DecidableEq, Repr

/-- The nine operations of R9, the rows of format `host_op`. -/
def Instr.isHostOp : Instr → Bool
  | .txCksum _ | .txHeader _ | .txEsc _ | .txSend _ | .rxByte _ | .rxChunk _ | .fidAlloc | .reset _ | .rxFlush => true
  | .rawFrame _ | .escaped _ | .escIntro | .start | .data _ | .escStart | .escEscape | .escXon | .escXoff
  | .literal _ _ | .awaitStart _ | .lenMsb _ | .lenLsb _ | .payload _ | .checksum _ | .evNone _ | .evFrame _
  | .evDropChecksum _ | .evDropAbort | .evDropOverlen _ | .evTxRefused _ => false

/-- The table format of an instruction's row; none for a host operation. -/
def Instr.format : Instr → Option Format
  | .rawFrame _ => some .frame
  | .escaped _ | .escIntro | .start | .data _ => some .rxByte
  | .escStart | .escEscape | .escXon | .escXoff => some (.txByte false)
  | .literal lead _ => some (.txByte lead)
  | .awaitStart _ | .lenMsb _ | .lenLsb _ | .payload _ | .checksum _ => some .rxState
  | .evNone _ | .evFrame _ | .evDropChecksum _ | .evDropAbort | .evDropOverlen _ | .evTxRefused _ => some .event
  | .txCksum _ | .txHeader _ | .txEsc _ | .txSend _ | .rxByte _ | .rxChunk _ | .fidAlloc | .reset _ | .rxFlush => none

/-- The format a request is presented under; none for a host operation. -/
def Request.format : Request → Option Format
  | .host _ => none
  | .bits fmt _ => some fmt

end Sys2Proof
end

