-- ==== Sys2Proof/WellFormed.lean ====
section
/-! DEFINITION. The checks an instruction's operands meet: the ranges the rules give them. -/

namespace Sys2Proof

/-- The operands are in the ranges of their rules: a payload of `TX.CKSUM` and of a raw frame has at most 65535 bytes
(R55, R57, R80); a `DATA` byte is not `START_BYTE`, which is class `START` or `ESCAPED` (R60); the byte at raw offset 0
is `START_BYTE` (R55); the configuration given to `RESET` is in range (R6). `TX.SEND` takes a payload of any length:
one that is too long is refused by its own event (R87). What fails a check is refused by the decoder (log entry 18). -/
def Instr.wellFormed : Instr → Bool
  | .rawFrame p => decide (p.length ≤ 65535)
  | .data b => b != startByte
  | .literal lead b => !lead || b == startByte
  | .txCksum p => decide (p.length ≤ 65535)
  | .reset cfg => cfg.valid
  | .escaped _ | .escIntro | .start | .escStart | .escEscape | .escXon | .escXoff
  | .awaitStart _ | .lenMsb _ | .lenLsb _ | .payload _ | .checksum _ | .evNone _ | .evFrame _
  | .evDropChecksum _ | .evDropAbort | .evDropOverlen _ | .evTxRefused _
  | .txHeader _ | .txEsc _ | .txSend _ | .rxByte _ | .rxChunk _ | .fidAlloc | .rxFlush => true

end Sys2Proof
end

