-- ==== Sys2Proof/Decode.lean ====
section
/-! DEFINITION. Decoding a request to an instruction, total on any bytes and rejecting by name, and the encoder.
The byte-class table (30_encoding.md rule R60) is decoded in the context its conditions read: the configuration
(R62: `ESC_EN` is the one mode bit that changes decoding) and the flag `rx_esc`. -/

namespace Sys2Proof

open Machine

/-- The byte-class table of R60, its rows tried in order. -/
def decodeRxByte (cfg : Config) (rxEsc : Bool) (b : Byte) : Instr :=
  if cfg.escEn && rxEsc then .escaped b
  else if cfg.escEn && b == escapeByte then .escIntro
  else if b == startByte then .start
  else .data b

/-- The `tx_byte` rows (R67, R84), tried in the order of the table; the byte at raw offset 0 is never escaped. -/
def decodeTxByte (cfg : Config) (lead : Bool) (b : Byte) : Except DecodeError Instr :=
  if lead then
    if b == startByte then .ok (.literal true b) else .error .notAStart
  else if !cfg.escEn then .ok (.literal false b)
  else if b == startByte then .ok .escStart
  else if b == escapeByte then .ok .escEscape
  else if b == cfg.xonByte then .ok .escXon
  else if b == cfg.xoffByte then .ok .escXoff
  else .ok (.literal false b)

/-- The `rx_state` rows: the code of R16 in bits 2:0 of the first byte, then the logical byte. -/
def decodeRxState : List Byte → Except DecodeError Instr
  | [c, v] =>
    if c = 0 then .ok (.awaitStart v)
    else if c = 1 then .ok (.lenMsb v)
    else if c = 2 then .ok (.lenLsb v)
    else if c = 3 then .ok (.payload v)
    else if c = 4 then .ok (.checksum v)
    else .error .reservedStateCode
  | _ => .error .wrongLength

/-- The operand of an event row that takes one byte. -/
def oneByte (k : Byte → Instr) : List Byte → Except DecodeError Instr
  | [v] => .ok (k v)
  | _ => .error .wrongLength

/-- The `event` rows: the code of R141 in bits 2:0 of the first byte, then the operand. -/
def decodeEvent : List Byte → Except DecodeError Instr
  | [] => .error .wrongLength
  | c :: r =>
    if c = 0 then oneByte .evNone r
    else if c = 1 then oneByte .evFrame r
    else if c = 2 then oneByte .evDropChecksum r
    else if c = 3 then (if r = [] then .ok .evDropAbort else .error .wrongLength)
    else if c = 4 then oneByte .evDropOverlen r
    else if c = 5 then .ok (.evTxRefused r)
    else .error .reservedEventCode

/-- The raw frame of R55: the start delimiter, the big-endian length, that many payload bytes, the checksum. Bytes
that are no raw frame are rejected by name (DEDUCED, log entry 18). -/
def decodeFrame : List Byte → Except DecodeError Instr
  | b :: h :: l :: r =>
    if b != startByte then .error .notAStart
    else if r.length != (joinBytes h l).toNat + 1 then .error .wrongLength
    else if r.drop (joinBytes h l).toNat = [cksum (r.take (joinBytes h l).toNat)] then
      .ok (.rawFrame (r.take (joinBytes h l).toNat))
    else .error .wrongChecksum
  | _ => .error .wrongLength

/-- The instruction a request stands for, in the configuration and with the flag `rx_esc` in force. -/
def decode (cfg : Config) (rxEsc : Bool) : Request → Except DecodeError Instr
  | .host i =>
    if !i.isHostOp then .error .notAHostOp
    else if i.wellFormed then .ok i else .error .operandOutOfRange
  | .bits .frame bs => decodeFrame bs
  | .bits .rxByte [b] => .ok (decodeRxByte cfg rxEsc b)
  | .bits .rxByte _ => .error .wrongLength
  | .bits (.txByte lead) [b] => decodeTxByte cfg lead b
  | .bits (.txByte _) _ => .error .wrongLength
  | .bits .rxState bs => decodeRxState bs
  | .bits .event bs => decodeEvent bs

/-- The request that presents an instruction. The bytes of `ESC_XON` and `ESC_XOFF` are the configured ones. -/
def encode (cfg : Config) : Instr → Request
  | .rawFrame p => .bits .frame (rawFrameBytes p)
  | .escaped b => .bits .rxByte [b]
  | .escIntro => .bits .rxByte [escapeByte]
  | .start => .bits .rxByte [startByte]
  | .data b => .bits .rxByte [b]
  | .escStart => .bits (.txByte false) [startByte]
  | .escEscape => .bits (.txByte false) [escapeByte]
  | .escXon => .bits (.txByte false) [cfg.xonByte]
  | .escXoff => .bits (.txByte false) [cfg.xoffByte]
  | .literal lead b => .bits (.txByte lead) [b]
  | .awaitStart v => .bits .rxState [0, v]
  | .lenMsb v => .bits .rxState [1, v]
  | .lenLsb v => .bits .rxState [2, v]
  | .payload v => .bits .rxState [3, v]
  | .checksum v => .bits .rxState [4, v]
  | .evNone b => .bits .event [0, b]
  | .evFrame v => .bits .event [1, v]
  | .evDropChecksum v => .bits .event [2, v]
  | .evDropAbort => .bits .event [3]
  | .evDropOverlen v => .bits .event [4, v]
  | .evTxRefused p => .bits .event (5 :: p)
  | .txCksum p => .host (.txCksum p)
  | .txHeader n => .host (.txHeader n)
  | .txEsc b => .host (.txEsc b)
  | .txSend p => .host (.txSend p)
  | .rxByte b => .host (.rxByte b)
  | .rxChunk bs => .host (.rxChunk bs)
  | .fidAlloc => .host .fidAlloc
  | .reset c => .host (.reset c)
  | .rxFlush => .host .rxFlush

/-- The condition under which a row of the byte-class tables is the one that applies (R60, R67, R84): the conditions in
the `fields` of the table, those of the earlier rows failing. The rows of the other formats have no condition. -/
def Instr.selected (cfg : Config) (rxEsc : Bool) : Instr → Bool
  | .escaped _ => cfg.escEn && rxEsc
  | .escIntro => cfg.escEn && !rxEsc
  | .start => !(cfg.escEn && rxEsc)
  | .data b => !(cfg.escEn && rxEsc) && !(cfg.escEn && b == escapeByte) && b != startByte
  | .escStart => cfg.escEn
  | .escEscape => cfg.escEn
  | .escXon => cfg.escEn && cfg.xonByte != startByte && cfg.xonByte != escapeByte
  | .escXoff => cfg.escEn && cfg.xoffByte != startByte && cfg.xoffByte != escapeByte && cfg.xoffByte != cfg.xonByte
  | .literal lead b => lead || !cfg.escEn || !reserved cfg b
  | .rawFrame _ | .awaitStart _ | .lenMsb _ | .lenLsb _ | .payload _ | .checksum _ | .evNone _ | .evFrame _
  | .evDropChecksum _ | .evDropAbort | .evDropOverlen _ | .evTxRefused _
  | .txCksum _ | .txHeader _ | .txEsc _ | .txSend _ | .rxByte _ | .rxChunk _ | .fidAlloc | .reset _ | .rxFlush => true

/-- The format a bare word of spec/opcode_table.json is read under. Rows of several formats share words (`0x7E` is
`START` and `ESC_START`, 0 is `AWAIT_START` and `NONE`) and a word does not name its format: the first row of the table
that fixes the whole word decides, and a byte no row fixes is a received byte (DESIGN CHOICE, log entry 12). -/
def tableFormat (nbits w : Nat) : Format :=
  if nbits != 8 then .frame
  else if w ≤ 4 then .rxState
  else if w = 5 then .event
  else if w = 0x11 || w = 0x13 then .txByte false
  else .rxByte

/-- The first `k` bytes of the word `w`, the least significant first: the byte in bits 7:0 of a bare word stands at raw
offset 0. The spec gives a raw frame no number (R55, R67), so this byte order is the model's (DESIGN CHOICE, log
entry 12). -/
def wordBytes : Nat → Nat → List Byte
  | 0, _ => []
  | k + 1, w => BitVec.ofNat 8 w :: wordBytes k (w / 256)

/-- The bytes of a raw frame whose first bytes are `bs`, the rest of it zero: its length field says how many. -/
def padFrame : List Byte → List Byte
  | b :: h :: l :: r => b :: h :: l :: (r ++ List.replicate ((joinBytes h l).toNat + 1 - r.length) 0)
  | bs => bs

/-- A bare table word as a request: its bytes, then the operand bytes the table gives no bits, zero (log entry 12). -/
def tableRequest (nbits w : Nat) : Request :=
  match tableFormat nbits w with
  | .frame => .bits .frame (padFrame (wordBytes (nbits / 8) w))
  | .rxState => .bits .rxState (wordBytes 1 w ++ [0])
  | fmt => .bits fmt (wordBytes (nbits / 8) w)

/-- The instruction the decoder reads from a table word, in the configuration and the flag that reset leaves
(`ESC_EN = 1`, `rx_esc = 0`); none where it rejects. -/
def decodeTableWord (nbits w : Nat) : Option Instr :=
  (decode Config.default false (tableRequest nbits w)).toOption

end Sys2Proof
end

