-- ==== Sys2Proof/Machine/State.lean ====
section
/-! DEFINITION. The state of HFC as plain data: the seven registers of 10_state.md rule R15, the configuration that
the last `RESET` installed (R25, R132), whether there has been one (R133), the requests the host has still to issue
(R10), and what a run has returned so far (R10). State.reset, and the reasons a step can stop. -/

namespace Sys2Proof.Machine

/-- The payload buffer `rx_buf` (R35): its bytes by index, in canonical form. The indices rise strictly, and no entry
holds what an unlisted index reads as (`unwritten`). -/
abbrev Memory := List Host.Cell

/-- What an index of `rx_buf` that nothing has written reads as. The content is unspecified and unobservable; the spec
lets a model take zero (R32, R38). DESIGN CHOICE, unsafe, log entry 5. -/
def unwritten : Byte := 0

/-- The five values of `rx_state` (R16). -/
inductive RxState where
  | awaitStart
  | lenMsb
  | lenLsb
  | payload
  | checksum
deriving DecidableEq, Repr

/-- The code of an `rx_state` value (R16, decision D17). -/
def RxState.code : RxState → BitVec 3
  | .awaitStart => 0
  | .lenMsb => 1
  | .lenLsb => 2
  | .payload => 3
  | .checksum => 4

/-- The events (R141), each with the information attached to it (R12): `FRAME` carries the payload, by value (R41, R108);
`TX_REFUSED` carries the length of the refused payload, as R86 raises it, against the summary of R141 and R150 (DEDUCED,
log entry 8). The others carry none. -/
inductive Event where
  | none
  | frame (p : List Byte)
  | dropChecksum
  | dropAbort
  | dropOverlen
  | txRefused (n : Nat)
deriving DecidableEq, Repr

/-- The code of an event (R141, decision D14). -/
def Event.code : Event → BitVec 3
  | .none => 0
  | .frame _ => 1
  | .dropChecksum => 2
  | .dropAbort => 3
  | .dropOverlen => 4
  | .txRefused _ => 5

/-- What an operation of TX returns: a byte (`TX.CKSUM`), bytes (`TX.HEADER`, `TX.ESC`, a raw frame), or an event
(`TX.SEND`). -/
inductive TxReturn where
  | byte (c : Byte)
  | bytes (bs : List Byte)
  | event (e : Event)
deriving DecidableEq, Repr

/-- What an operation of RX returns: the event of one byte (R95), or the events other than `NONE` of the bytes of a
chunk, in order (R112). -/
inductive RxReturn where
  | event (e : Event)
  | chunk (es : List Event)
deriving DecidableEq, Repr

/-- The state of the machine. -/
structure State where
  /-- a `RESET` has been issued (R133, R170; DEDUCED, log entry 4) -/
  started : Bool
  /-- the configuration in force (R25, R136; held here and changed by `RESET` only: DEDUCED, log entry 3) -/
  cfg : Config
  /-- `rx_state`, the sequencing register (R16) -/
  rxState : RxState
  /-- `rx_esc`, the escape-pending flag (R17) -/
  rxEsc : Bool
  /-- `rx_len`, the declared length (R18) -/
  rxLen : Half
  /-- `rx_cnt`, the count of payload bytes stored, and the store index (R19) -/
  rxCnt : Half
  /-- `rx_sum`, the sum of the stored payload bytes modulo 256 (R20) -/
  rxSum : Byte
  /-- `rx_buf`, the payload buffer (R21, R35) -/
  rxBuf : Memory
  /-- `fid_ctr`, the frame-id counter (R24) -/
  fidCtr : Byte
  /-- the transmit stream: the wire bytes the `TX.SEND` operations emitted (R36; the run's record, R10) -/
  txStream : List Byte
  /-- what the operations of TX returned, oldest first (R10); a `RESET` keeps this and the other records (DESIGN CHOICE,
  log entry 7) -/
  txRet : List TxReturn
  /-- what the operations of RX returned, oldest first (R10) -/
  rxRet : List RxReturn
  /-- the frame ids `FID.ALLOC` returned, oldest first (R10) -/
  fidRet : List Byte
  /-- the requests the host has still to issue, the next one first (R8, R10; the run's free input) -/
  pending : List Request
deriving DecidableEq, Repr

/-- HFC has no fault of its own on any run that begins with `RESET` (R111, R152). -/
inductive Fault where
  /-- Raised by a store to or a read-out of `rx_buf` at an index the buffer does not have (R35: it is indexed
  `0 .. MAX_LEN-1`). No state that meets the invariants of R30 raises it (R37). Safe: the model stops, and nothing is
  claimed of a store that the spec says cannot happen (DESIGN CHOICE, log entry 11). -/
  | rxBufIndex (index : Nat)
deriving DecidableEq, Repr

/-- The reasons an instruction is refused. -/
inductive Refusal where
  /-- Raised by `exec` for an instruction that has no meaning yet; no arm raises it. Safe. -/
  | notModelled (mnemonic : String)
  /-- Raised by every instruction but `RESET` before the first `RESET` (R170, U1: refuse). Safe. -/
  | notReset
  /-- Raised by `RESET` with a configuration outside the ranges of R6 (U4: refuse; log entry 15). Safe. -/
  | configOutOfRange
  /-- Raised by `step` for a request that is no instruction (U3, U4, U9: refuse). Safe. -/
  | badRequest (e : DecodeError)
deriving DecidableEq, Repr

/-- The outcome of an instruction. -/
abbrev Out := Host.Outcome State Fault Refusal

/-- The machine right after `RESET` with the default configuration (R32, R165; DESIGN CHOICE, log entry 10): nothing
listed in `rx_buf`, and, of the run's own records, nothing returned and nothing pending (DESIGN CHOICE, log entry 6). -/
def State.reset : State where
  started := true
  cfg := Config.default
  rxState := .awaitStart
  rxEsc := false
  rxLen := 0
  rxCnt := 0
  rxSum := 0
  rxBuf := []
  fidCtr := 1
  txStream := []
  txRet := []
  rxRet := []
  fidRet := []
  pending := []

end Sys2Proof.Machine
end

