-- ==== Sys2Proof/Machine/Ops.lean ====
section
/-! DEFINITION. The shared operations: the buffer `rx_buf`, raising an event, the three stages of `RX.BYTE`
(41_rx_assembler.md rule R95), the loop of `RX.CHUNK`, emitting a frame, the frame-id counter, and how an operation
returns its result. -/

namespace Sys2Proof.Machine

/-- The canonical form of `rx_buf`. -/
abbrev Memory.wf (m : Memory) : Prop :=
  m.Pairwise (fun c d => c.1 < d.1) ∧ ∀ c ∈ m, c.2 ≠ unwritten

/-- The byte at index `a`. -/
def Memory.read : Memory → Nat → Byte
  | [], _ => unwritten
  | c :: m, a => if c.1 = a then c.2 else Memory.read m a

/-- An entry in front of `m`, unless it holds what an unlisted index reads as. -/
def Memory.cons (a : Nat) (v : Byte) (m : Memory) : Memory := if v = unwritten then m else (a, v) :: m

/-- `m` with the byte `v` at index `a`, in canonical form again. -/
def Memory.write : Memory → Nat → Byte → Memory
  | [], a, v => Memory.cons a v []
  | c :: m, a, v =>
    if c.1 < a then c :: Memory.write m a v
    else if c.1 = a then Memory.cons a v m
    else Memory.cons a v (c :: m)

/-- The bytes at indices `0 .. n-1`. -/
def Memory.take (m : Memory) (n : Nat) : List Byte := (List.range n).map m.read

/-- `MemWrite(addr, 1, v)` (R12, R35): the buffer has the indices `0 .. MAX_LEN-1` and no others. -/
def memWrite (a : Nat) (v : Byte) (s : State) : Except Fault State :=
  if a < s.cfg.maxLen then .ok { s with rxBuf := s.rxBuf.write a v } else .error (.rxBufIndex a)

/-- `MemRead(0, n)` (R12, R35). -/
def memRead (n : Nat) (s : State) : Except Fault (List Byte) :=
  if n ≤ s.cfg.maxLen then .ok (s.rxBuf.take n) else .error (.rxBufIndex s.cfg.maxLen)

/-- The writes of start detection (R98): the beginning of a frame. `rx_esc` is not written. -/
def startFrame (s : State) : State := { s with rxState := .lenMsb, rxLen := 0, rxCnt := 0, rxSum := 0 }

/-- `raise e` (R12, R150): the event is the result of the operation, and the register writes that the rule which
raises it lists with it are performed. Nothing is saved anywhere. -/
def raise : Event → State → Event × State
  | .none, s => (.none, s)
  | .frame p, s => (.frame p, { s with rxState := .awaitStart })
  | .dropChecksum, s => (.dropChecksum, { s with rxState := .awaitStart })
  | .dropAbort, s => (.dropAbort, startFrame s)
  | .dropOverlen, s => (.dropOverlen, { s with rxState := .awaitStart })
  | .txRefused n, s => (.txRefused n, s)

/-- Stage 1, unescape (R96): the logical byte and its mark "was escaped", or nothing where the byte is consumed as an
introducer; and the state with `rx_esc` written. -/
def unescapeStage (b : Byte) (s : State) : Option (Byte × Bool) × State :=
  if escapePending s.cfg.escEn s.rxEsc then (some (flipEsc b, true), { s with rxEsc := false })
  else if introducesEscape s.cfg.escEn b then (none, { s with rxEsc := true })
  else (some (b, false), s)

/-- The state in which a logical byte reaches the stages after the first: no escape is pending any more (R96, R97
item 6). -/
def afterUnescape (s : State) : State :=
  if escapePending s.cfg.escEn s.rxEsc then { s with rxEsc := false } else s

/-- Stage 2 on a byte that begins a frame (R98). -/
def startDetected (s : State) : Event × State :=
  if s.rxState = .awaitStart then raise .none (startFrame s) else raise .dropAbort s

/-- The rule of state `AWAIT_START` (R101). -/
def onAwaitStart (_v : Byte) (s : State) : Except Fault (Event × State) := .ok (raise .none s)

/-- The rule of state `LEN_MSB` (R102). -/
def onLenMsb (v : Byte) (s : State) : Except Fault (Event × State) :=
  .ok (raise .none { s with rxLen := joinBytes v 0, rxState := .lenLsb })

/-- The rule of state `LEN_LSB` (R103). -/
def onLenLsb (v : Byte) (s : State) : Except Fault (Event × State) :=
  if overlen s.cfg (setLo s.rxLen v) then .ok (raise .dropOverlen { s with rxLen := setLo s.rxLen v })
  else if setLo s.rxLen v = 0 then .ok (raise .none { s with rxLen := setLo s.rxLen v, rxState := .checksum })
  else .ok (raise .none { s with rxLen := setLo s.rxLen v, rxState := .payload })

/-- The state after the payload byte `v` is stored at `rx_cnt`, summed and counted (R105). -/
def countPayload (v : Byte) (s : State) : State :=
  { s with rxSum := s.rxSum + v, rxCnt := s.rxCnt + 1,
           rxState := if s.rxCnt + 1 = s.rxLen then .checksum else s.rxState }

/-- The rule of state `PAYLOAD` (R105). -/
def onPayload (v : Byte) (s : State) : Except Fault (Event × State) :=
  match memWrite s.rxCnt.toNat v s with
  | .error f => .error f
  | .ok t => .ok (raise .none (countPayload v t))

/-- The rule of state `CHECKSUM` (R107). -/
def onChecksum (v : Byte) (s : State) : Except Fault (Event × State) :=
  if sumMatches s.rxSum v then
    match memRead s.rxLen.toNat s with
    | .error f => .error f
    | .ok p => .ok (raise (.frame p) s)
  else .ok (raise .dropChecksum s)

/-- Stage 3, state interpretation of the logical byte `v` (R95, R110). -/
def interpret (v : Byte) (s : State) : Except Fault (Event × State) :=
  match s.rxState with
  | .awaitStart => onAwaitStart v s
  | .lenMsb => onLenMsb v s
  | .lenLsb => onLenLsb v s
  | .payload => onPayload v s
  | .checksum => onChecksum v s

/-- Stages 2 and 3 on the logical byte `v` with the mark `we` (R95). -/
def logicalByte (v : Byte) (we : Bool) (s : State) : Except Fault (Event × State) :=
  if isStart v we then .ok (startDetected s) else interpret v s

/-- `RX.BYTE(b)` (R95): one wire byte through the three stages, giving exactly one event. -/
def receiveByte (b : Byte) (s : State) : Except Fault (Event × State) :=
  match unescapeStage b s with
  | (none, t) => .ok (raise .none t)
  | (some (v, we), t) => logicalByte v we t

/-- `e` in front of the events of the rest of a chunk, unless it is `NONE` (R112). -/
def reportIn (e : Event) (es : List Event) : List Event := if e = .none then es else e :: es

/-- The loop of `RX.CHUNK` (R112): the bytes in order, keeping the events other than `NONE`. -/
def receiveBytes : List Byte → State → Except Fault (List Event × State)
  | [], s => .ok ([], s)
  | b :: bs, s =>
    match receiveByte b s with
    | .error f => .error f
    | .ok (e, t) =>
      match receiveBytes bs t with
      | .error f => .error f
      | .ok (es, u) => .ok (reportIn e es, u)

/-- `emit` (R12): the bytes join the transmit stream. -/
def emit (bs : List Byte) (s : State) : State := { s with txStream := s.txStream ++ bs }

/-- TX returns `r`. -/
def txReturn (r : TxReturn) (s : State) : State := { s with txRet := s.txRet ++ [r] }

/-- RX returns `r`. -/
def rxReturn (r : RxReturn) (s : State) : State := { s with rxRet := s.rxRet ++ [r] }

/-- The outcome of an operation of RX that gives one event. -/
def rxEvent : Except Fault (Event × State) → Out
  | .error f => .fault f
  | .ok (e, t) => .next (rxReturn (.event e) t)

/-- The outcome of `RX.CHUNK`. -/
def rxEvents : Except Fault (List Event × State) → Out
  | .error f => .fault f
  | .ok (es, t) => .next (rxReturn (.chunk es) t)

/-- The refusal of the payload `p` (R87): the event with the payload's length (R86; log entry 8), and no byte. -/
def refuseSend (p : List Byte) (s : State) : State :=
  txReturn (.event (raise (.txRefused p.length) s).1) (raise (.txRefused p.length) s).2

/-- `TX.SEND(p)` (R86, R87): one frame, or the refusal and no byte. With `MAX_LEN = 65535` the
refusal covers exactly the payloads whose length does not fit the length field (R87); of every payload that fits it, R145
holds (DEDUCED, log entry 19). -/
def sendFrame (p : List Byte) (s : State) : State :=
  if tooLong s.cfg p then refuseSend p s
  else txReturn (.event .none) (emit (wireFrame s.cfg p) s)

/-- The counter after the id `c` is handed out (R125, 90_conflicts.md C1). -/
def nextFid (c : Byte) : Byte := if c = 254 then 1 else c + 1

/-- The RX registers at their idle values (R132, R134). `rx_buf` is not written. -/
def idleRx (s : State) : State :=
  { s with rxState := .awaitStart, rxEsc := false, rxLen := 0, rxCnt := 0, rxSum := 0 }

/-- Every operation but `RESET` is refused before the first `RESET` (R170, U1). -/
def afterReset (s : State) (o : Out) : Out := if s.started then o else .refused .notReset

end Sys2Proof.Machine
end

