-- ==== Sys2Proof/Machine/Control.lean ====
section
/-! DEFINITION. `FID.ALLOC` (42_frame_id.md) and the control operations `RESET` and `RX.FLUSH` (43_control.md). -/

namespace Sys2Proof.Machine

/-- `FID.ALLOC` (R125): the counter's value is handed out, and the counter advances. -/
def execFidAlloc (s : State) : Out :=
  afterReset s (.next { s with fidCtr := nextFid s.fidCtr, fidRet := s.fidRet ++ [s.fidCtr] })

/-- `RESET` (R132): the new configuration, the RX registers idle, the counter at the seed. `rx_buf` is not written
(log entry 14), no event is raised, and it is the one operation that may come first (R133). A configuration out of range
is refused (U4). -/
def execReset (cfg : Config) (s : State) : Out :=
  if cfg.valid then
    .next { idleRx s with started := true, cfg := cfg, fidCtr := BitVec.ofNat 8 cfg.fidSeed }
  else .refused .configOutOfRange

/-- `RX.FLUSH` (R134): the RX registers idle; `fid_ctr` and the configuration stay. -/
def execRxFlush (s : State) : Out := afterReset s (.next (idleRx s))

end Sys2Proof.Machine
end

