-- ==== Sys2Proof/Machine/Events.lean ====
section
/-! DEFINITION. The `event` rows of RX (60_exceptions.md rule R141): the byte that causes the event is presented at the
stage that raises it, and where its cause holds the event is taken as R150 says. Where the cause does not hold the event
is not raised (R140), and the byte has the effect its rule gives it (log entry 1). A logical byte is one that the
unescape stage has let through, so no escape is pending after it (R150, R97 item 6; log entry 17). `TX_REFUSED` stands in Tx.lean. -/

namespace Sys2Proof.Machine

/-- `NONE` (R95): the wire byte `b` goes through the three stages; the event is `NONE` when there is nothing to
report. -/
def execEvNone (b : Byte) (s : State) : Out := afterReset s (rxEvent (receiveByte b s))

/-- `FRAME` (R107, R150): in state `CHECKSUM` the byte matches, and the payload is delivered whole. -/
def execEvFrame (v : Byte) (s : State) : Out :=
  afterReset s (rxEvent (
    if s.rxState = .checksum && sumMatches s.rxSum v then
      match memRead s.rxLen.toNat (afterUnescape s) with
      | .error f => .error f
      | .ok p => .ok (raise (.frame p) (afterUnescape s))
    else interpret v (afterUnescape s)))

/-- `DROP_CHECKSUM` (R107, R143, R150): in state `CHECKSUM` the byte does not match, and the frame is discarded. -/
def execEvDropChecksum (v : Byte) (s : State) : Out :=
  afterReset s (rxEvent (
    if s.rxState = .checksum && !sumMatches s.rxSum v then .ok (raise .dropChecksum (afterUnescape s))
    else interpret v (afterUnescape s)))

/-- `DROP_ABORT` (R98, R144, R150): an unescaped `START_BYTE` in any state but `AWAIT_START` abandons the frame in
progress and begins the next; in `AWAIT_START` it begins a frame and raises nothing, and with an escape pending it is an
escaped byte. -/
def execEvDropAbort (s : State) : Out :=
  afterReset s (rxEvent (
    if !escapePending s.cfg.escEn s.rxEsc && s.rxState != .awaitStart then .ok (raise .dropAbort s)
    else receiveByte startByte s))

/-- `DROP_OVERLEN` (R103, R145, R150): in state `LEN_LSB` the declared length exceeds `MAX_LEN`. -/
def execEvDropOverlen (v : Byte) (s : State) : Out :=
  afterReset s (rxEvent (
    if s.rxState = .lenLsb && overlen s.cfg (setLo s.rxLen v) then
      .ok (raise .dropOverlen { afterUnescape s with rxLen := setLo s.rxLen v })
    else interpret v (afterUnescape s)))

end Sys2Proof.Machine
end

