-- ==== Sys2Proof/Machine/Rx.lean ====
section
/-! DEFINITION. The instructions of RX: the `rx_byte` rows, the `rx_state` rows, and the operations `RX.BYTE` and
`RX.CHUNK` of 41_rx_assembler.md. A row states its own effect under its own condition. In a state where the condition
fails another row applies to the same byte, and that row's effect is what happens: every byte has a defined effect in
every state (30_encoding.md rule R63; log entry 1). A row of the state table takes a logical byte, one that the unescape
stage has let through, so no escape is pending after it (R97 item 6; log entry 17). -/

namespace Sys2Proof.Machine

/-- `ESCAPED` (R96, R60 row 1): `rx_esc <- 0`, and `b xor 0x20` goes to the state interpretation, never a start. -/
def execEscaped (b : Byte) (s : State) : Out :=
  afterReset s (rxEvent (
    if escapePending s.cfg.escEn s.rxEsc then interpret (flipEsc b) { s with rxEsc := false }
    else receiveByte b s))

/-- `ESC_INTRO` (R96, R60 row 2): `rx_esc <- 1`, the byte is consumed, nothing else changes. -/
def execEscIntro (s : State) : Out :=
  afterReset s (rxEvent (
    if s.cfg.escEn && !s.rxEsc then .ok (raise .none { s with rxEsc := true }) else receiveByte escapeByte s))

/-- `START` (R98, R60 row 3): a new frame begins; the frame in progress, if there is one, is abandoned. -/
def execStart (s : State) : Out :=
  afterReset s (rxEvent (
    if escapePending s.cfg.escEn s.rxEsc then receiveByte startByte s else .ok (startDetected s)))

/-- `DATA` (R95, R60 row 4): `b` goes to the state interpretation as it is. -/
def execData (b : Byte) (s : State) : Out :=
  afterReset s (rxEvent (
    if !escapePending s.cfg.escEn s.rxEsc && !introducesEscape s.cfg.escEn b && b != startByte then interpret b s
    else receiveByte b s))

/-- `AWAIT_START` (R101): the logical byte is discarded. -/
def execAwaitStart (v : Byte) (s : State) : Out :=
  afterReset s (rxEvent (
    if s.rxState = .awaitStart then onAwaitStart v (afterUnescape s) else interpret v (afterUnescape s)))

/-- `LEN_MSB` (R102): the high byte of the length. -/
def execLenMsb (v : Byte) (s : State) : Out :=
  afterReset s (rxEvent (
    if s.rxState = .lenMsb then onLenMsb v (afterUnescape s) else interpret v (afterUnescape s)))

/-- `LEN_LSB` (R103): the low byte of the length, and the test against `MAX_LEN`. -/
def execLenLsb (v : Byte) (s : State) : Out :=
  afterReset s (rxEvent (
    if s.rxState = .lenLsb then onLenLsb v (afterUnescape s) else interpret v (afterUnescape s)))

/-- `PAYLOAD` (R105): the payload byte is stored, summed and counted. -/
def execPayload (v : Byte) (s : State) : Out :=
  afterReset s (rxEvent (
    if s.rxState = .payload then onPayload v (afterUnescape s) else interpret v (afterUnescape s)))

/-- `CHECKSUM` (R107): the checksum is tested and the frame delivered or dropped. -/
def execChecksum (v : Byte) (s : State) : Out :=
  afterReset s (rxEvent (
    if s.rxState = .checksum then onChecksum v (afterUnescape s) else interpret v (afterUnescape s)))

/-- `RX.BYTE` (R95). -/
def execRxByte (b : Byte) (s : State) : Out := afterReset s (rxEvent (receiveByte b s))

/-- `RX.CHUNK` (R112). -/
def execRxChunk (bs : List Byte) (s : State) : Out := afterReset s (rxEvents (receiveBytes bs s))

end Sys2Proof.Machine
end

