-- ==== Sys2Proof/Machine/Tx.lean ====
section
/-! DEFINITION. The instructions of TX: the raw frame, the `tx_byte` rows, and the four operations of
40_tx_encoder.md. TX has no state (10_state.md rule R23): an instruction of TX changes only what TX has returned and,
for `TX.SEND`, the transmit stream. -/

namespace Sys2Proof.Machine

/-- `RAW_FRAME` (R55): the raw frame of `p`. The table's row gives a raw frame a payload of at most `MAX_LEN` bytes;
a longer one is refused as `TX.SEND` refuses it (R87; DEDUCED, log entry 16). -/
def execRawFrame (p : List Byte) (s : State) : Out :=
  afterReset s (.next (
    if tooLong s.cfg p then refuseSend p s
    else txReturn (.bytes (rawFrameBytes p)) s))

/-- `ESC_START` (R84): the body byte `0x7E` is sent as `7D 5E`; with `ESC_EN = 0` it is sent as it is. -/
def execEscStart (s : State) : Out :=
  afterReset s (.next (txReturn (.bytes (if s.cfg.escEn then escapePair startByte else [startByte])) s))

/-- `ESC_ESCAPE` (R84): the body byte `0x7D` is sent as `7D 5D`; with `ESC_EN = 0` it is sent as it is. -/
def execEscEscape (s : State) : Out :=
  afterReset s (.next (txReturn (.bytes (if s.cfg.escEn then escapePair escapeByte else [escapeByte])) s))

/-- `ESC_XON` (R84): the body byte `XON_BYTE` is sent as its escape pair; with `ESC_EN = 0` it is sent as it is. -/
def execEscXon (s : State) : Out :=
  afterReset s (.next (txReturn (.bytes (if s.cfg.escEn then escapePair s.cfg.xonByte else [s.cfg.xonByte])) s))

/-- `ESC_XOFF` (R84): the body byte `XOFF_BYTE` is sent as its escape pair; with `ESC_EN = 0` it is sent as it is. -/
def execEscXoff (s : State) : Out :=
  afterReset s (.next (txReturn (.bytes (if s.cfg.escEn then escapePair s.cfg.xoffByte else [s.cfg.xoffByte])) s))

/-- `LITERAL` (R84): the byte itself, where the byte stands at raw offset 0, is not in `RSV`, or `ESC_EN = 0`. A body
byte that is in `RSV` with `ESC_EN = 1` belongs to another row and is sent as its escape pair. -/
def execLiteral (lead : Bool) (b : Byte) (s : State) : Out :=
  afterReset s (.next (txReturn (.bytes (if lead || !mustEscape s.cfg b then [b] else escapePair b)) s))

/-- `TX.CKSUM` (R80). -/
def execTxCksum (p : List Byte) (s : State) : Out := afterReset s (.next (txReturn (.byte (cksum p)) s))

/-- `TX.HEADER` (R82). -/
def execTxHeader (n : Half) (s : State) : Out := afterReset s (.next (txReturn (.bytes (header n)) s))

/-- `TX.ESC` (R84). -/
def execTxEsc (b : Byte) (s : State) : Out := afterReset s (.next (txReturn (.bytes (txEscBytes s.cfg b)) s))

/-- `TX.SEND` (R86, R87). -/
def execTxSend (p : List Byte) (s : State) : Out := afterReset s (.next (sendFrame p s))

/-- `TX_REFUSED` (R87, R150): a payload longer than `MAX_LEN` raises the event, emits no byte and changes nothing; one
that TX accepts is sent. -/
def execEvTxRefused (p : List Byte) (s : State) : Out :=
  afterReset s (.next (
    if tooLong s.cfg p then refuseSend p s
    else sendFrame p s))

end Sys2Proof.Machine
end

