-- ==== Sys2Proof/Machine/Dispatch.lean ====
section
/-! DEFINITION. The dispatch: one arm per instruction. -/

namespace Sys2Proof.Machine

def exec (i : Instr) (s : State) : Host.Outcome State Fault Refusal :=
  match i with
  -- format frame
  | .rawFrame p => Sys2Proof.Machine.execRawFrame p s
  -- format rx_byte
  | .escaped b => Sys2Proof.Machine.execEscaped b s
  | .escIntro => Sys2Proof.Machine.execEscIntro s
  | .start => Sys2Proof.Machine.execStart s
  | .data b => Sys2Proof.Machine.execData b s
  -- format tx_byte
  | .escStart => Sys2Proof.Machine.execEscStart s
  | .escEscape => Sys2Proof.Machine.execEscEscape s
  | .escXon => Sys2Proof.Machine.execEscXon s
  | .escXoff => Sys2Proof.Machine.execEscXoff s
  | .literal lead b => Sys2Proof.Machine.execLiteral lead b s
  -- format rx_state
  | .awaitStart v => Sys2Proof.Machine.execAwaitStart v s
  | .lenMsb v => Sys2Proof.Machine.execLenMsb v s
  | .lenLsb v => Sys2Proof.Machine.execLenLsb v s
  | .payload v => Sys2Proof.Machine.execPayload v s
  | .checksum v => Sys2Proof.Machine.execChecksum v s
  -- format event
  | .evNone b => Sys2Proof.Machine.execEvNone b s
  | .evFrame v => Sys2Proof.Machine.execEvFrame v s
  | .evDropChecksum v => Sys2Proof.Machine.execEvDropChecksum v s
  | .evDropAbort => Sys2Proof.Machine.execEvDropAbort s
  | .evDropOverlen v => Sys2Proof.Machine.execEvDropOverlen v s
  | .evTxRefused p => Sys2Proof.Machine.execEvTxRefused p s
  -- format host_op
  | .txCksum p => Sys2Proof.Machine.execTxCksum p s
  | .txHeader n => Sys2Proof.Machine.execTxHeader n s
  | .txEsc b => Sys2Proof.Machine.execTxEsc b s
  | .txSend p => Sys2Proof.Machine.execTxSend p s
  | .rxByte b => Sys2Proof.Machine.execRxByte b s
  | .rxChunk bs => Sys2Proof.Machine.execRxChunk bs s
  | .fidAlloc => Sys2Proof.Machine.execFidAlloc s
  | .reset cfg => Sys2Proof.Machine.execReset cfg s
  | .rxFlush => Sys2Proof.Machine.execRxFlush s

end Sys2Proof.Machine
end

