-- ==== Sys2Proof/Machine/Step.lean ====
section
/-! DEFINITION. One step: the host performs one operation (00_scope.md rule R8). -/

namespace Sys2Proof.Machine

/-- One step. The host issues its next request, which is decoded in the configuration and the flag in force and run to
completion; between operations HFC is idle and keeps all its state (R162). -/
def step (s : State) : Host.Outcome State Fault Refusal :=
  match s.pending with
  | [] => .next s
  | r :: rest =>
    match decode s.cfg s.rxEsc r with
    | .error e => .refused (.badRequest e)
    | .ok i => exec i { s with pending := rest }

/-- `s` with a bare table word as the request the host issues next, in front of the others (log entries 2, 12). -/
def State.withFetchWord (s : State) (nbits w : Nat) : State :=
  { s with pending := tableRequest nbits w :: s.pending }

end Sys2Proof.Machine
end

