-- ==== Sys2Proof/Safety.lean ====
section
/-! DEFINITION. What counts as a safe state (10_state.md rule R30), the views of a run that claims are stated in
(00_scope.md rule R10), and which parts of the state two states share. -/

namespace Sys2Proof

open Machine

/-- The invariants of R30, item by item, with the configuration in range (R6) and the buffer in canonical form. Item 1
holds by the type of `rx_state`. Of item 7 this is the half that a state can show: `rx_sum` is the sum of the bytes
stored. -/
structure Invariants (s : State) : Prop where
  cfgValid : s.cfg.valid = true
  /-- item 2 -/
  escOff : s.cfg.escEn = false → s.rxEsc = false
  /-- item 3 -/
  lenMsb : s.rxState = .lenMsb → s.rxLen = 0 ∧ s.rxCnt = 0 ∧ s.rxSum = 0
  /-- item 4 -/
  lenLsb : s.rxState = .lenLsb → loByte s.rxLen = 0 ∧ s.rxCnt = 0 ∧ s.rxSum = 0
  /-- item 5 -/
  payload : s.rxState = .payload →
    1 ≤ s.rxLen.toNat ∧ s.rxLen.toNat ≤ s.cfg.maxLen ∧ s.rxCnt.toNat < s.rxLen.toNat
  /-- item 6 -/
  checksum : s.rxState = .checksum → s.rxLen.toNat ≤ s.cfg.maxLen ∧ s.rxCnt = s.rxLen
  /-- item 7 -/
  sum : s.rxState = .payload ∨ s.rxState = .checksum →
    s.rxSum = BitVec.ofNat 8 (sumBytes (s.rxBuf.take s.rxCnt.toNat))
  /-- item 8 -/
  fid : 1 ≤ s.fidCtr.toNat ∧ s.fidCtr.toNat ≤ 254
  bufWf : s.rxBuf.wf

/-- A state of a run: there has been a `RESET` (R133) and the invariants of R30 hold. -/
structure Live (s : State) : Prop where
  started : s.started = true
  inv : Invariants s

/-- The events other than `NONE` in one value RX returned. -/
def Machine.RxReturn.reported : RxReturn → List Event
  | .event e => reportIn e []
  | .chunk es => es

/-- The events other than `NONE` that RX has reported, in order: what R10 observes of RX. -/
def Machine.State.reported (s : State) : List Event := s.rxRet.flatMap RxReturn.reported

/-- The two states have the same RX registers and the same buffer. -/
def SameRx (s t : State) : Prop :=
  t.rxState = s.rxState ∧ t.rxEsc = s.rxEsc ∧ t.rxLen = s.rxLen ∧ t.rxCnt = s.rxCnt ∧ t.rxSum = s.rxSum ∧
    t.rxBuf = s.rxBuf

/-- The two states agree on all that is not RX's: the configuration, `fid_ctr`, what TX and FID returned, the transmit
stream, and the requests to come. -/
def SameOutsideRx (s t : State) : Prop :=
  t.started = s.started ∧ t.cfg = s.cfg ∧ t.fidCtr = s.fidCtr ∧ t.txStream = s.txStream ∧ t.txRet = s.txRet ∧
    t.fidRet = s.fidRet ∧ t.pending = s.pending

/-- The units of HFC (R8), and the control part. -/
inductive HfcUnit where
  | tx
  | rx
  | fid
  | control
deriving DecidableEq, Repr

/-- The unit an instruction belongs to (R9). -/
def Instr.unit : Instr → HfcUnit
  | .rawFrame _ | .escStart | .escEscape | .escXon | .escXoff | .literal _ _ | .evTxRefused _
  | .txCksum _ | .txHeader _ | .txEsc _ | .txSend _ => .tx
  | .escaped _ | .escIntro | .start | .data _ | .awaitStart _ | .lenMsb _ | .lenLsb _ | .payload _ | .checksum _
  | .evNone _ | .evFrame _ | .evDropChecksum _ | .evDropAbort | .evDropOverlen _ | .rxByte _ | .rxChunk _ => .rx
  | .fidAlloc => .fid
  | .reset _ | .rxFlush => .control

/-- The instructions of RX that take one byte and give one event: all of RX's but `RX.CHUNK`. -/
def Instr.rxOneByte (i : Instr) : Prop := i.unit = .rx ∧ ∀ bs, i ≠ .rxChunk bs

/-- The row of format `rx_state` that interprets the logical byte `v` in the state `q` (R110). -/
def Machine.RxState.row : RxState → Byte → Instr
  | .awaitStart, v => .awaitStart v
  | .lenMsb, v => .lenMsb v
  | .lenLsb, v => .lenLsb v
  | .payload, v => .payload v
  | .checksum, v => .checksum v

/-- The wire byte `v` is of class `DATA` (R60 row 4): no escape is pending, and `v` is neither an introducer nor
`START_BYTE`. -/
def DataClass (s : State) (v : Byte) : Prop :=
  ¬ (s.cfg.escEn = true ∧ s.rxEsc = true) ∧ ¬ (s.cfg.escEn = true ∧ v = 0x7D) ∧ v ≠ 0x7E

end Sys2Proof
end

