-- ==== Sys2Proof/Certificates/Slice0/Obligations.lean ====
section
/-! DEFINITION. The statements for the provers. Each docstring names the rules of spec/ it comes from. -/

open Sys2Proof Sys2Proof.Machine Host

/-! ## Encoding -/

/-- 30_encoding.md R60 and R67, 40_tx_encoder.md R84, 10_state.md R16, 60_exceptions.md R141: a well-formed instruction
whose row applies in the configuration and the flag in force is read back from the request that presents it, with every
operand. The layout of a request is the model's choice (log entries 2, 13). -/
def Obligations.DecodeReadsBackEncode : Prop :=
  ∀ (cfg : Config) (rxEsc : Bool) (i : Instr), i.wellFormed = true → i.selected cfg rxEsc = true →
    decode cfg rxEsc (encode cfg i) = .ok i

/-- The other direction: a request that decodes to `i` is the one that presents `i`, and `i` is well formed and its row
applies; so each word has one meaning (R60: "exactly one row applies"). -/
def Obligations.EveryRequestHasOneMeaning : Prop :=
  ∀ (cfg : Config) (rxEsc : Bool) (r : Request) (i : Instr), decode cfg rxEsc r = .ok i →
    encode cfg i = r ∧ i.wellFormed = true ∧ i.selected cfg rxEsc = true

/-- 30_encoding.md R60, the four rows in order. -/
def Obligations.ByteClassTableDecoded : Prop :=
  ∀ (cfg : Config) (rxEsc : Bool) (b : Byte),
    (cfg.escEn = true → rxEsc = true → decode cfg rxEsc (.bits .rxByte [b]) = .ok (.escaped b)) ∧
    (cfg.escEn = true → rxEsc = false → b = 0x7D → decode cfg rxEsc (.bits .rxByte [b]) = .ok .escIntro) ∧
    ((cfg.escEn = false ∨ rxEsc = false) → b = 0x7E → decode cfg rxEsc (.bits .rxByte [b]) = .ok .start) ∧
    ((cfg.escEn = false ∨ rxEsc = false) → ¬ (cfg.escEn = true ∧ b = 0x7D) → b ≠ 0x7E →
      decode cfg rxEsc (.bits .rxByte [b]) = .ok (.data b))

/-- Words written out from the tables of 30_encoding.md R55, R59, R60, 10_state.md R16 and 60_exceptions.md R141. The
operand bytes of the state and event rows are the model's choice (log entry 13). -/
def Obligations.SampleWordsDecode : Prop :=
  decode Config.default false (.bits .rxByte [0x7D]) = .ok .escIntro ∧
  decode Config.default false (.bits .rxByte [0x7E]) = .ok .start ∧
  decode Config.default true (.bits .rxByte [0x7E]) = .ok (.escaped 0x7E) ∧
  decode Config.default false (.bits .rxByte [0x11]) = .ok (.data 0x11) ∧
  decode Config.default false (.bits (.txByte false) [0x13]) = .ok .escXoff ∧
  decode Config.default false (.bits .rxState [0x03, 0x42]) = .ok (.payload 0x42) ∧
  decode Config.default false (.bits .event [0x04, 0x01]) = .ok (.evDropOverlen 0x01) ∧
  decode Config.default false (.bits .frame [0x7E, 0x00, 0x02, 0x8A, 0x06, 0x6F]) = .ok (.rawFrame [0x8A, 0x06]) ∧
  decode Config.default false (.host (.txSend [0x81])) = .ok (.txSend [0x81])

/-! ## The step -/

/-- 00_scope.md R8, 60_exceptions.md R162: the next request of the host, if it decodes to an instruction, is executed
with the request taken off; with none pending HFC is idle. That the host's requests are a queue in State is the model's
choice (log entry 2). That a request that is no instruction is refused by name is the model's reading of
93_implementation_defined.md U3, U4 and U9 (log entry 18). -/
def Obligations.StepRunsTheDecodedInstruction : Prop :=
  ∀ (s : State) (r : Request) (rest : List Request), s.pending = r :: rest →
    (∀ i, decode s.cfg s.rxEsc r = .ok i → step s = exec i { s with pending := rest }) ∧
    (∀ e, decode s.cfg s.rxEsc r = .error e → step s = .refused (.badRequest e)) ∧
    step { s with pending := [] } = .next { s with pending := [] }


/-! ## Reset and control -/

/-- 10_state.md R32: the state after `RESET` with the defaults of R6. The values are the spec's decisions D4, D5, D18,
D19; what `rx_buf` lists and the empty records of the run are the model's choice (log entries 5, 6). -/
def Obligations.ResetStateHasTheSpecsValues : Prop :=
  State.reset.rxState = .awaitStart ∧ State.reset.rxEsc = false ∧ State.reset.rxLen = 0 ∧ State.reset.rxCnt = 0 ∧
  State.reset.rxSum = 0 ∧ State.reset.fidCtr = BitVec.ofNat 8 State.reset.cfg.fidSeed ∧
  State.reset.cfg = { escEn := true, xonByte := 0x11, xoffByte := 0x13, maxLen := 65535, fidSeed := 1 } ∧
  exec (.reset Config.default) State.reset = .next State.reset

/-- 43_control.md R132: `RESET`, issued in any state whatever, first `RESET` or not. A configuration outside the ranges
of 00_scope.md R6 is refused (93_implementation_defined.md U4; log entry 15). That a `RESET` keeps the records of the run
and the pending requests is the model's choice (log entry 7). -/
def Obligations.ResetInstallsConfiguration : Prop :=
  ∀ (cfg : Config) (s : State),
    (1 ≤ cfg.maxLen ∧ cfg.maxLen ≤ 65535 ∧ 1 ≤ cfg.fidSeed ∧ cfg.fidSeed ≤ 254 →
      exec (.reset cfg) s = .next { s with
        started := true, cfg := cfg, rxState := .awaitStart, rxEsc := false, rxLen := 0, rxCnt := 0, rxSum := 0,
        fidCtr := BitVec.ofNat 8 cfg.fidSeed }) ∧
    (¬ (1 ≤ cfg.maxLen ∧ cfg.maxLen ≤ 65535 ∧ 1 ≤ cfg.fidSeed ∧ cfg.fidSeed ≤ 254) →
      exec (.reset cfg) s = .refused .configOutOfRange)

/-- 43_control.md R134: `RX.FLUSH`; `fid_ctr`, the configuration and the buffer stay. -/
def Obligations.FlushIdlesTheAssembler : Prop :=
  ∀ s : State, s.started = true →
    exec .rxFlush s = .next { s with
      rxState := .awaitStart, rxEsc := false, rxLen := 0, rxCnt := 0, rxSum := 0 }

/-- 70_reset_and_hazards.md R170, 43_control.md R133: before the first `RESET` no other instruction has a meaning. That
each of them, the rows of the table included, is refused by name is the model's reading, with
93_implementation_defined.md U1 (log entries 1, 4). -/
def Obligations.NothingRunsBeforeReset : Prop :=
  ∀ (i : Instr) (s : State), s.started = false → (∀ cfg, i ≠ .reset cfg) → exec i s = .refused .notReset

/-- 43_control.md R136: no instruction but `RESET` changes the configuration. That whether there has been a `RESET` is
a flag, which no other instruction changes either, is the model's reading (log entry 4), and that the rows of the table
are among the instructions is its choice (log entry 1). -/
def Obligations.OnlyResetChangesConfiguration : Prop :=
  ∀ (i : Instr) (s t : State), exec i s = .next t → (∀ cfg, i ≠ .reset cfg) →
    t.cfg = s.cfg ∧ t.started = s.started

/-! ## TX -/

/-- 40_tx_encoder.md R80: the checksum returned, and nothing else changed. -/
def Obligations.ChecksumReturned : Prop :=
  ∀ (p : List Byte) (s : State), s.started = true →
    exec (.txCksum p) s = .next { s with
      txRet := s.txRet ++ [.byte (BitVec.ofNat 8 (255 - sumBytes p % 256))] }

/-- 40_tx_encoder.md R81: the four forms of the checksum agree; the third says it is the unique byte that fits. -/
def Obligations.ChecksumFormsAgree : Prop :=
  ∀ p : List Byte,
    (cksum p).toNat = 255 - sumBytes p % 256 ∧
    cksum p = 0xFF#8 ^^^ BitVec.ofNat 8 (sumBytes p % 256) ∧
    (∀ c : Byte, (sumBytes p + c.toNat) % 256 = 255 ↔ c = cksum p) ∧
    p.foldl (fun (acc b : Byte) => acc + b) 0 = BitVec.ofNat 8 (sumBytes p % 256)

/-- 40_tx_encoder.md R82: `n div 256`, then `n mod 256`. -/
def Obligations.HeaderReturned : Prop :=
  ∀ (n : Half) (s : State), s.started = true →
    exec (.txHeader n) s = .next { s with
      txRet := s.txRet ++ [.bytes [BitVec.ofNat 8 (n.toNat / 256), BitVec.ofNat 8 (n.toNat % 256)]] }

/-- 40_tx_encoder.md R84: the wire encoding of one body byte, every byte and every configuration. -/
def Obligations.EscapedByteReturned : Prop :=
  ∀ (b : Byte) (s : State), s.started = true →
    exec (.txEsc b) s = .next { s with
      txRet := s.txRet ++ [.bytes
        (if s.cfg.escEn = true ∧ (b = 0x7E ∨ b = 0x7D ∨ b = s.cfg.xonByte ∨ b = s.cfg.xoffByte)
         then [0x7D, b ^^^ 0x20] else [b])] }

/-- spec/opcode_table.json, the `tx_byte` rows, 30_encoding.md R58 and R59: with `ESC_EN = 1` the four members of `RSV`
are sent as their escape pairs; with `ESC_EN = 0` as they are. That the rows are presented as instructions is the
model's choice (log entry 1). -/
def Obligations.ReservedBodyBytesSentAsPairs : Prop :=
  ∀ s : State, s.started = true →
    (s.cfg.escEn = true →
      exec .escStart s = .next { s with txRet := s.txRet ++ [.bytes [0x7D, 0x5E]] } ∧
      exec .escEscape s = .next { s with txRet := s.txRet ++ [.bytes [0x7D, 0x5D]] } ∧
      exec .escXon s = .next { s with txRet := s.txRet ++ [.bytes [0x7D, s.cfg.xonByte ^^^ 0x20]] } ∧
      exec .escXoff s = .next { s with txRet := s.txRet ++ [.bytes [0x7D, s.cfg.xoffByte ^^^ 0x20]] }) ∧
    (s.cfg.escEn = false →
      exec .escStart s = .next { s with txRet := s.txRet ++ [.bytes [0x7E]] } ∧
      exec .escEscape s = .next { s with txRet := s.txRet ++ [.bytes [0x7D]] } ∧
      exec .escXon s = .next { s with txRet := s.txRet ++ [.bytes [s.cfg.xonByte]] } ∧
      exec .escXoff s = .next { s with txRet := s.txRet ++ [.bytes [s.cfg.xoffByte]] })

/-- The row `LITERAL`: the leading byte is sent as it is in both modes; a body byte is sent as `TX.ESC` sends it (30_encoding.md
R58, 40_tx_encoder.md R84). That the row is presented as an instruction is the model's choice (log entry 1). -/
def Obligations.LiteralSentAsItIs : Prop :=
  ∀ (b : Byte) (s : State), s.started = true →
    exec (.literal true b) s = .next { s with txRet := s.txRet ++ [.bytes [b]] } ∧
    exec (.literal false b) s = exec (.txEsc b) s ∧
    ((s.cfg.escEn = false ∨ (b ≠ 0x7E ∧ b ≠ 0x7D ∧ b ≠ s.cfg.xonByte ∧ b ≠ s.cfg.xoffByte)) →
      exec (.literal false b) s = .next { s with txRet := s.txRet ++ [.bytes [b]] })

/-- 30_encoding.md R55, R56: the raw frame of a payload that TX accepts. That the row is presented as an instruction
is the model's choice (log entry 1). -/
def Obligations.RawFrameReturned : Prop :=
  ∀ (p : List Byte) (s : State), s.started = true → p.length ≤ s.cfg.maxLen →
    exec (.rawFrame p) s = .next { s with
      txRet := s.txRet ++ [.bytes
        ([0x7E, BitVec.ofNat 8 (p.length / 256), BitVec.ofNat 8 (p.length % 256)] ++ p ++
          [BitVec.ofNat 8 (255 - sumBytes p % 256)])] }

/-- 40_tx_encoder.md R86: one frame joins the transmit stream, the event is `NONE`, and nothing else changes. -/
def Obligations.SendEmitsOneFrame : Prop :=
  ∀ (p : List Byte) (s : State), s.started = true → p.length ≤ s.cfg.maxLen →
    exec (.txSend p) s = .next { s with
      txStream := s.txStream ++ 0x7E :: escape s.cfg
        ([BitVec.ofNat 8 (p.length / 256), BitVec.ofNat 8 (p.length % 256)] ++ p ++
          [BitVec.ofNat 8 (255 - sumBytes p % 256)]),
      txRet := s.txRet ++ [.event .none] }

/-- 40_tx_encoder.md R87, 60_exceptions.md R150 (decision D5): a payload longer than `MAX_LEN` is refused, no byte is
emitted and nothing changes. That the event carries the length is R86's reading against R141's (log entry 8), and that
it is raised at `MAX_LEN = 65535` too, for a payload that the length field cannot count, is R87's, beside R145 (log
entry 19). The row `TX_REFUSED` presents a payload to `TX.SEND` (log entry 1). That a raw frame is refused in the same
way is the model's reading (log entry 16). -/
def Obligations.LongPayloadRefused : Prop :=
  ∀ (p : List Byte) (s : State),
    exec (.evTxRefused p) s = exec (.txSend p) s ∧
    (s.started = true → s.cfg.maxLen < p.length →
      exec (.txSend p) s = .next { s with txRet := s.txRet ++ [.event (.txRefused p.length)] } ∧
      exec (.rawFrame p) s = .next { s with txRet := s.txRet ++ [.event (.txRefused p.length)] })

/-- 40_tx_encoder.md R85, R88: the length of an escaped sequence, and of a wire frame. -/
def Obligations.WireFrameLengthCounted : Prop :=
  ∀ cfg : Config,
    (∀ u : List Byte, (escape cfg u).length =
      u.length + if cfg.escEn = true then (u.filter (reserved cfg)).length else 0) ∧
    (∀ p : List Byte, (wireFrame cfg p).length =
      p.length + 4 + if cfg.escEn = true then ((rawBody p).filter (reserved cfg)).length else 0)

/-- 40_tx_encoder.md R88, 30_encoding.md R58: with `ESC_EN = 1` and the default `XON_BYTE` and `XOFF_BYTE`, a wire frame
begins with `0x7E`, no later byte is `0x7E`, `0x11` or `0x13`, and every `0x7D` begins one of the four escape pairs. -/
def Obligations.WireFrameIsDelimited : Prop :=
  ∀ (cfg : Config) (p : List Byte), cfg.escEn = true → cfg.xonByte = 0x11 → cfg.xoffByte = 0x13 →
    ∃ w : List Byte, wireFrame cfg p = 0x7E :: w ∧ (∀ b ∈ w, b ≠ 0x7E ∧ b ≠ 0x11 ∧ b ≠ 0x13) ∧
      ∀ k : Nat, w[k]? = some 0x7D → ∃ c ∈ [0x5E#8, 0x5D#8, 0x31#8, 0x33#8], w[k + 1]? = some c

/-- 41_rx_assembler.md R115: `unescape` undoes `escape`, in both modes and for every setting of the parameters. -/
def Obligations.UnescapeUndoesEscape : Prop :=
  ∀ (cfg : Config) (u : List Byte), unescape cfg.escEn (escape cfg u) = u

/-- 40_tx_encoder.md R90: no wire frame is a prefix of another payload's wire frame, and different payloads have
different wire frames. -/
def Obligations.WireFramesArePrefixFree : Prop :=
  ∀ (cfg : Config) (p q : List Byte), p.length ≤ 65535 → q.length ≤ 65535 →
    wireFrame cfg p <+: wireFrame cfg q → p = q

/-- 40_tx_encoder.md R92: payloads of one length that differ in exactly one position have different checksums. -/
def Obligations.OneByteChangeChangesChecksum : Prop :=
  ∀ (u v : List Byte) (a b : Byte), a ≠ b → cksum (u ++ a :: v) ≠ cksum (u ++ b :: v)

/-- 10_state.md R23, 40_tx_encoder.md R89: an instruction of TX changes no register, and what it returns and emits
depends on its operand and the configuration alone. That the rows of the table are among the instructions is the model's
choice (log entry 1). -/
def Obligations.TxIsAFunctionOfItsOperand : Prop :=
  ∀ (i : Instr) (cfg : Config), i.unit = .tx →
    ∃ (r : TxReturn) (w : List Byte), ∀ s : State, s.started = true → s.cfg = cfg →
      exec i s = .next { s with txRet := s.txRet ++ [r], txStream := s.txStream ++ w }

/-! ## RX, byte by byte -/

/-- 41_rx_assembler.md R96: an introducer is consumed and changes nothing but `rx_esc`. That the row `ESC_INTRO` is
presented as an instruction is the model's choice (log entry 1). -/
def Obligations.EscapeIntroducerConsumed : Prop :=
  ∀ s : State, s.started = true → s.cfg.escEn = true → s.rxEsc = false →
    exec (.rxByte 0x7D) s = .next { s with rxEsc := true, rxRet := s.rxRet ++ [.event .none] } ∧
    exec .escIntro s = .next { s with rxEsc := true, rxRet := s.rxRet ++ [.event .none] }

/-- 41_rx_assembler.md R96, R99: with an escape pending the byte, whatever it is (`0x7D` and `0x7E` too), is read as
`b xor 0x20`, `rx_esc` returns to 0, and the state's row interprets it: it never begins a frame. That the rows are
presented as instructions is the model's choice (log entry 1). -/
def Obligations.EscapedByteIsData : Prop :=
  ∀ (b : Byte) (s : State), s.cfg.escEn = true → s.rxEsc = true →
    exec (.rxByte b) s = exec (s.rxState.row (b ^^^ 0x20)) { s with rxEsc := false } ∧
    exec (.escaped b) s = exec (s.rxState.row (b ^^^ 0x20)) { s with rxEsc := false }

/-- 30_encoding.md R60 row 4, 41_rx_assembler.md R97 item 1: a byte of class `DATA` is interpreted as it is. That the
rows are presented as instructions is the model's choice (log entry 1). -/
def Obligations.DataByteIsInterpreted : Prop :=
  ∀ (v : Byte) (s : State), DataClass s v →
    exec (.rxByte v) s = exec (s.rxState.row v) s ∧ exec (.data v) s = exec (s.rxState.row v) s

/-- 41_rx_assembler.md R95, R110, R111, 30_encoding.md R63: a row whose condition does not hold leaves its byte to the
row that applies, so the rows of the byte-class table act as `RX.BYTE` on their byte, and the rows of the state table and
of the events of stage 3 as the row of the state in force on their logical byte. That a row is presented so is the
model's choice (log entry 1). A logical byte has been through the unescape stage, so it finds no escape pending
(log entry 17). -/
def Obligations.RowsActAsTheByteTheyPresent : Prop :=
  ∀ (b : Byte) (s : State),
    (exec (.escaped b) s = exec (.rxByte b) s ∧ exec .escIntro s = exec (.rxByte 0x7D) s ∧
      exec .start s = exec (.rxByte 0x7E) s ∧ exec (.data b) s = exec (.rxByte b) s ∧
      exec (.evNone b) s = exec (.rxByte b) s ∧ exec .evDropAbort s = exec (.rxByte 0x7E) s) ∧
    (exec (.awaitStart b) s = exec (s.rxState.row b) s ∧ exec (.lenMsb b) s = exec (s.rxState.row b) s ∧
      exec (.lenLsb b) s = exec (s.rxState.row b) s ∧ exec (.payload b) s = exec (s.rxState.row b) s ∧
      exec (.checksum b) s = exec (s.rxState.row b) s ∧ exec (.evFrame b) s = exec (s.rxState.row b) s ∧
      exec (.evDropChecksum b) s = exec (s.rxState.row b) s ∧ exec (.evDropOverlen b) s = exec (s.rxState.row b) s) ∧
    (s.cfg.escEn = true → exec (s.rxState.row b) s = exec (s.rxState.row b) { s with rxEsc := false })

/-- 41_rx_assembler.md R98 (the event is decision D13): an unescaped `START_BYTE` in any state begins a frame, and
abandons the one in progress. The row `DROP_ABORT` presents that byte (log entry 1). -/
def Obligations.StartBeginsAFrame : Prop :=
  ∀ (s t : State), s.started = true →
    t = { s with rxState := .lenMsb, rxLen := 0, rxCnt := 0, rxSum := 0,
                 rxRet := s.rxRet ++ [.event (if s.rxState = .awaitStart then .none else .dropAbort)] } →
    (s.cfg.escEn = false ∨ s.rxEsc = false) →
    exec (.rxByte 0x7E) s = .next t ∧ exec .start s = .next t ∧ exec .evDropAbort s = .next t

/-- 41_rx_assembler.md R101: a logical byte is discarded in `AWAIT_START`. That a row presents it is the model's choice
(log entry 1). -/
def Obligations.AwaitStartDiscards : Prop :=
  ∀ (v : Byte) (s : State), s.started = true → s.rxState = .awaitStart → (s.cfg.escEn = false ∨ s.rxEsc = false) →
    exec (.awaitStart v) s = .next { s with rxRet := s.rxRet ++ [.event .none] } ∧
    (DataClass s v →
      exec (.rxByte v) s = .next { s with rxRet := s.rxRet ++ [.event .none] } ∧
      exec (.evNone v) s = .next { s with rxRet := s.rxRet ++ [.event .none] })

/-- 41_rx_assembler.md R102: the high byte of the length. That a row presents it is the model's choice (log entry
1). -/
def Obligations.LengthHighByteTaken : Prop :=
  ∀ (v : Byte) (s : State), s.started = true → s.rxState = .lenMsb → (s.cfg.escEn = false ∨ s.rxEsc = false) →
    exec (.lenMsb v) s = .next { s with
      rxLen := v ++ 0x00#8, rxState := .lenLsb, rxRet := s.rxRet ++ [.event .none] }

/-- 41_rx_assembler.md R103, 60_exceptions.md R150: the low byte of the length; a length above `MAX_LEN` is dropped
(decision D5), a length of 0 skips the payload (decision D6). That a row presents the byte is the model's choice (log
entry 1). -/
def Obligations.LengthLowByteDecides : Prop :=
  ∀ (v : Byte) (s : State) (n : Half), s.started = true → s.rxState = .lenLsb →
    (s.cfg.escEn = false ∨ s.rxEsc = false) →
    n.toNat = (s.rxLen.toNat / 256) * 256 + v.toNat →
    (s.cfg.maxLen < n.toNat →
      exec (.lenLsb v) s = .next { s with
        rxLen := n, rxState := .awaitStart, rxRet := s.rxRet ++ [.event .dropOverlen] } ∧
      exec (.evDropOverlen v) s = .next { s with
        rxLen := n, rxState := .awaitStart, rxRet := s.rxRet ++ [.event .dropOverlen] }) ∧
    (n.toNat ≤ s.cfg.maxLen →
      exec (.lenLsb v) s = .next { s with
        rxLen := n, rxState := if n = 0 then .checksum else .payload, rxRet := s.rxRet ++ [.event .none] })

/-- 41_rx_assembler.md R105, 20_memory.md R35, R37: the logical byte is stored at `rx_cnt`, summed and counted; every
other byte of the buffer reads as before. An index that the buffer does not have stops the machine (log entry 11); no
state that meets R30 has one. The row is presented as log entry 1 says. -/
def Obligations.PayloadByteStored : Prop :=
  ∀ (v : Byte) (s : State), s.started = true → s.rxState = .payload → s.rxBuf.wf →
    (s.cfg.escEn = false ∨ s.rxEsc = false) →
    (s.rxCnt.toNat < s.cfg.maxLen →
      ∃ m : Memory, m.wf ∧ m.read s.rxCnt.toNat = v ∧ (∀ a, a ≠ s.rxCnt.toNat → m.read a = s.rxBuf.read a) ∧
        exec (.payload v) s = .next { s with
          rxBuf := m, rxSum := s.rxSum + v, rxCnt := s.rxCnt + 1,
          rxState := if s.rxCnt + 1 = s.rxLen then .checksum else .payload,
          rxRet := s.rxRet ++ [.event .none] }) ∧
    (s.cfg.maxLen ≤ s.rxCnt.toNat → exec (.payload v) s = .fault (.rxBufIndex s.rxCnt.toNat))

/-- 41_rx_assembler.md R107, R108, 60_exceptions.md R150: on a match the payload is delivered, the bytes of the buffer
at `0 .. rx_len - 1`; on a mismatch the frame is dropped; `rx_state` alone is written. A read-out past the buffer stops
the machine (log entry 11); no state that meets R30 has one. The rows are presented as log entry 1 says. -/
def Obligations.ChecksumByteDecides : Prop :=
  ∀ (v : Byte) (s : State), s.started = true → s.rxState = .checksum → (s.cfg.escEn = false ∨ s.rxEsc = false) →
    ((s.rxSum.toNat + v.toNat) % 256 = 255 → s.rxLen.toNat ≤ s.cfg.maxLen →
      exec (.checksum v) s = .next { s with
        rxState := .awaitStart,
        rxRet := s.rxRet ++ [.event (.frame ((List.range s.rxLen.toNat).map s.rxBuf.read))] } ∧
      exec (.evFrame v) s = exec (.checksum v) s) ∧
    ((s.rxSum.toNat + v.toNat) % 256 = 255 → s.cfg.maxLen < s.rxLen.toNat →
      exec (.checksum v) s = .fault (.rxBufIndex s.cfg.maxLen)) ∧
    ((s.rxSum.toNat + v.toNat) % 256 ≠ 255 →
      exec (.checksum v) s = .next { s with
        rxState := .awaitStart, rxRet := s.rxRet ++ [.event .dropChecksum] } ∧
      exec (.evDropChecksum v) s = exec (.checksum v) s)

/-- 41_rx_assembler.md R111, 10_state.md R30: in every state of a run every instruction of RX that takes a byte
completes, gives exactly one event, changes nothing outside RX, and keeps the invariants. (`TX_REFUSED` is no event of
RX, R141.) -/
def Obligations.EveryByteIsHandled : Prop :=
  ∀ (i : Instr) (s : State), i.rxOneByte → Live s →
    ∃ (t : State) (e : Event), exec i s = .next t ∧ t.rxRet = s.rxRet ++ [.event e] ∧ (∀ n, e ≠ .txRefused n) ∧
      SameOutsideRx s t ∧ Live t

/-- 60_exceptions.md R150: the state after each event of `RX.BYTE`, in every state of a run. -/
def Obligations.StateAfterEachEvent : Prop :=
  ∀ (b : Byte) (s t : State) (e : Event), Live s → exec (.rxByte b) s = .next t → t.rxRet = s.rxRet ++ [.event e] →
    (∀ p, e = .frame p → t.rxState = .awaitStart ∧ t.rxEsc = false ∧ t.rxLen = s.rxLen ∧ t.rxCnt = s.rxCnt ∧
      t.rxSum = s.rxSum ∧ t.rxBuf = s.rxBuf ∧ p = (List.range s.rxLen.toNat).map s.rxBuf.read) ∧
    (e = .dropChecksum → t.rxState = .awaitStart ∧ t.rxEsc = false ∧ t.rxLen = s.rxLen ∧ t.rxCnt = s.rxCnt ∧
      t.rxSum = s.rxSum ∧ t.rxBuf = s.rxBuf) ∧
    (e = .dropOverlen → t.rxState = .awaitStart ∧ t.rxEsc = false ∧ t.cfg.maxLen < t.rxLen.toNat ∧ t.rxCnt = 0 ∧
      t.rxSum = 0 ∧ t.rxBuf = s.rxBuf) ∧
    (e = .dropAbort → t.rxState = .lenMsb ∧ t.rxEsc = false ∧ t.rxLen = 0 ∧ t.rxCnt = 0 ∧ t.rxSum = 0 ∧
      t.rxBuf = s.rxBuf)

/-- 10_state.md R17, 41_rx_assembler.md R97: after `RX.BYTE` the flag is 1 exactly when the byte was consumed as an
introducer. -/
def Obligations.EscapePendingExactlyAfterIntroducer : Prop :=
  ∀ (b : Byte) (s t : State), Live s → exec (.rxByte b) s = .next t →
    (t.rxEsc = true ↔ s.cfg.escEn = true ∧ s.rxEsc = false ∧ b = 0x7D)

/-- 60_exceptions.md R142, 20_memory.md R41, 41_rx_assembler.md R107: a payload that `RX.BYTE` delivers has the declared
length, and the checksum byte that ended its frame fits it. -/
def Obligations.DeliveredPayloadIsVerified : Prop :=
  ∀ (b v : Byte) (p : List Byte) (s t : State), Live s → exec (.rxByte b) s = .next t →
    t.rxRet = s.rxRet ++ [.event (.frame p)] →
    v = (if s.cfg.escEn = true ∧ s.rxEsc = true then b ^^^ 0x20 else b) →
    s.rxState = .checksum ∧ p.length = s.rxLen.toNat ∧ (sumBytes p + v.toNat) % 256 = 255 ∧ v = cksum p

/-- 41_rx_assembler.md R110: the only way into `LEN_MSB` from another state is an unescaped `START_BYTE`, and the only
bytes that enter `AWAIT_START` end a frame or refuse its length. -/
def Obligations.WaysIntoLenMsbAndAwaitStart : Prop :=
  ∀ (b : Byte) (s t : State), exec (.rxByte b) s = .next t →
    (t.rxState = .lenMsb → s.rxState ≠ .lenMsb → b = 0x7E ∧ (s.cfg.escEn = false ∨ s.rxEsc = false)) ∧
    (t.rxState = .awaitStart → s.rxState ≠ .awaitStart →
      (s.rxState = .checksum ∧ ((∃ p, t.rxRet = s.rxRet ++ [.event (.frame p)]) ∨
        t.rxRet = s.rxRet ++ [.event .dropChecksum])) ∨
      (s.rxState = .lenLsb ∧ t.rxRet = s.rxRet ++ [.event .dropOverlen]))

/-- 60_exceptions.md R145, 92_eei_decisions.md D5: with `MAX_LEN = 65535` no byte and no chunk raises `DROP_OVERLEN`, and
no instruction of TX raises `TX_REFUSED`, whatever payload whose length fits the 16-bit length field it is given. That
R145 speaks of those payloads, and R87 of the others, is the model's reading (log entry 19); that the rows of the table
are instructions is its choice (log entry 1). -/
def Obligations.NoLengthEventAtTheLargestMaxLen : Prop :=
  ∀ (i : Instr) (s t : State), s.cfg.maxLen = 65535 → exec i s = .next t →
    (i.rxOneByte → t.rxRet ≠ s.rxRet ++ [.event .dropOverlen]) ∧
    (∀ bs es, i = .rxChunk bs → t.rxRet = s.rxRet ++ [.chunk es] → .dropOverlen ∉ es) ∧
    (i.unit = .tx → (∀ p, i = .txSend p ∨ i = .evTxRefused p ∨ i = .rawFrame p → p.length ≤ 65535) →
      ∀ n, t.txRet ≠ s.txRet ++ [.event (.txRefused n)])

/-! ## RX, streams -/

/-- 41_rx_assembler.md R112: `RX.CHUNK` is `RX.BYTE` on each byte in order, keeping the events other than `NONE`. -/
def Obligations.ChunkIsTheByteLoop : Prop :=
  ∀ s : State, s.started = true →
    exec (.rxChunk []) s = .next { s with rxRet := s.rxRet ++ [.chunk []] } ∧
    ∀ (b : Byte) (bs : List Byte) (e : Event) (es : List Event) (t u : State),
      exec (.rxByte b) s = .next t → t.rxRet = s.rxRet ++ [.event e] →
      exec (.rxChunk bs) t = .next u → u.rxRet = t.rxRet ++ [.chunk es] →
      exec (.rxChunk (b :: bs)) s = .next { u with
        rxRet := s.rxRet ++ [.chunk (if e = .none then es else e :: es)] }

/-- 41_rx_assembler.md R111, R112: in every state of a run every chunk completes; it returns at most one event a byte,
none of them `NONE`, changes nothing outside RX, and keeps the invariants. -/
def Obligations.EveryChunkIsHandled : Prop :=
  ∀ (bs : List Byte) (s : State), Live s →
    ∃ (t : State) (es : List Event), exec (.rxChunk bs) s = .next t ∧ t.rxRet = s.rxRet ++ [.chunk es] ∧
      es.length ≤ bs.length ∧ .none ∉ es ∧ SameOutsideRx s t ∧ Live t

/-- 41_rx_assembler.md R113: where a stream is cut makes no difference to the events or to the registers. -/
def Obligations.FragmentationMakesNoDifference : Prop :=
  ∀ (xs ys : List Byte) (s t : State), exec (.rxChunk (xs ++ ys)) s = .next t →
    ∃ (u v : State) (es fs : List Event), exec (.rxChunk xs) s = .next u ∧ exec (.rxChunk ys) u = .next v ∧
      u.rxRet = s.rxRet ++ [.chunk es] ∧ v.rxRet = u.rxRet ++ [.chunk fs] ∧ t.rxRet = s.rxRet ++ [.chunk (es ++ fs)] ∧
      SameRx v t ∧ SameOutsideRx v t

/-- 41_rx_assembler.md R116, 40_tx_encoder.md R91: what `TX.SEND(p)` emits, given to an RX with the same configuration
and no escape pending, is received as `p`, whatever frame was in progress. In mode 1 the body must not contain `0x7E`
(90_conflicts.md C4). -/
def Obligations.SentFrameIsReceived : Prop :=
  ∀ (p w : List Byte) (s x y : State), Live s → s.rxEsc = false →
    x.started = true → x.cfg = s.cfg → p.length ≤ s.cfg.maxLen → (s.cfg.escEn = true ∨ startByte ∉ rawBody p) →
    exec (.txSend p) x = .next y → y.txStream = x.txStream ++ w →
    ∃ t : State, exec (.rxChunk w) s = .next t ∧
      t.rxRet = s.rxRet ++ [.chunk (if s.rxState = .awaitStart then [.frame p] else [.dropAbort, .frame p])] ∧
      t.rxState = .awaitStart ∧ t.rxEsc = false ∧ Live t

/-- 40_tx_encoder.md R91: the `FRAME` event comes on the last byte: the bytes before it raise nothing, and that
byte, given to the state they leave, returns it. -/
def Obligations.FrameArrivesOnItsLastByte : Prop :=
  ∀ (p : List Byte) (s : State), Live s → s.rxEsc = false → s.rxState = .awaitStart →
    p.length ≤ s.cfg.maxLen → (s.cfg.escEn = true ∨ startByte ∉ rawBody p) →
    ∃ (b : Byte) (t u : State), (wireFrame s.cfg p).getLast? = some b ∧
      exec (.rxChunk (wireFrame s.cfg p).dropLast) s = .next t ∧
      t.rxRet = s.rxRet ++ [.chunk []] ∧ t.rxState = .checksum ∧
      exec (.rxByte b) t = .next u ∧ u.rxRet = t.rxRet ++ [.event (.frame p)] ∧ u.rxState = .awaitStart

/-- 41_rx_assembler.md R117: whatever came before, if no escape is pending the next wire frame is received; if one is,
the frame after the next is. -/
def Obligations.AssemblerResynchronises : Prop :=
  ∀ (bs p q : List Byte) (s t : State), Live s → exec (.rxChunk bs) s = .next t →
    q.length ≤ s.cfg.maxLen → (s.cfg.escEn = true ∨ startByte ∉ rawBody q) →
    (t.rxEsc = false →
      ∃ (u : State) (es : List Event), exec (.rxChunk (wireFrame s.cfg q)) t = .next u ∧
        u.rxRet = t.rxRet ++ [.chunk (es ++ [.frame q])] ∧ (es = [] ∨ es = [.dropAbort])) ∧
    (t.rxEsc = true →
      ∃ (u : State) (es : List Event), exec (.rxChunk (wireFrame s.cfg p ++ wireFrame s.cfg q)) t = .next u ∧
        u.rxRet = t.rxRet ++ [.chunk (es ++ [.frame q])])

/-- 40_tx_encoder.md R92: a raw frame one payload byte of which was changed after its checksum was computed, suitably
escaped, is rejected with `DROP_CHECKSUM`. -/
def Obligations.OneByteChangeIsRejected : Prop :=
  ∀ (u v : List Byte) (a b : Byte) (s : State), Live s → s.rxEsc = false → s.rxState = .awaitStart → a ≠ b →
    (u ++ b :: v).length ≤ s.cfg.maxLen →
    (s.cfg.escEn = true ∨
      startByte ∉ header (BitVec.ofNat 16 (u ++ b :: v).length) ++ (u ++ b :: v) ++ [cksum (u ++ a :: v)]) →
    ∃ t : State,
      exec (.rxChunk (startByte :: escape s.cfg
        (header (BitVec.ofNat 16 (u ++ b :: v).length) ++ (u ++ b :: v) ++ [cksum (u ++ a :: v)]))) s = .next t ∧
      t.rxRet = s.rxRet ++ [.chunk [.dropChecksum]] ∧ t.rxState = .awaitStart

/-- 41_rx_assembler.md R119: two frames, with noise between them that holds no `0x7E` and no `0x7D`, are each received
as if alone. -/
def Obligations.FramesFollowOneAnother : Prop :=
  ∀ (p q z : List Byte) (s : State), Live s → s.rxEsc = false → s.rxState = .awaitStart →
    p.length ≤ s.cfg.maxLen → q.length ≤ s.cfg.maxLen →
    (s.cfg.escEn = true ∨ (startByte ∉ rawBody p ∧ startByte ∉ rawBody q)) →
    (∀ b ∈ z, b ≠ 0x7E ∧ b ≠ 0x7D) →
    ∃ t : State, exec (.rxChunk (wireFrame s.cfg p ++ z ++ wireFrame s.cfg q)) s = .next t ∧
      t.rxRet = s.rxRet ++ [.chunk [.frame p, .frame q]]

/-- 20_memory.md R45, R38: after an unescaped `START_BYTE` everything RX does depends only on the bytes that follow: two
states of a run under one configuration, however different, report the same events and reach the same registers. -/
def Obligations.NothingBeforeAStartMatters : Prop :=
  ∀ (bs : List Byte) (s s' a a' : State), Live s → Live s' → s.cfg = s'.cfg → s.rxEsc = false → s'.rxEsc = false →
    exec (.rxByte 0x7E) s = .next a → exec (.rxByte 0x7E) s' = .next a' →
    ∃ (t t' : State) (es : List Event), exec (.rxChunk bs) a = .next t ∧ exec (.rxChunk bs) a' = .next t' ∧
      t.rxRet = a.rxRet ++ [.chunk es] ∧ t'.rxRet = a'.rxRet ++ [.chunk es] ∧
      t.rxState = t'.rxState ∧ t.rxEsc = t'.rxEsc ∧ t.rxLen = t'.rxLen ∧ t.rxCnt = t'.rxCnt ∧ t.rxSum = t'.rxSum

/-- 41_rx_assembler.md R100: RX never reads `XON_BYTE` or `XOFF_BYTE`. -/
def Obligations.ReceiverIgnoresXonAndXoff : Prop :=
  ∀ (i : Instr) (s t : State) (x y : Byte), i.unit = .rx → exec i s = .next t →
    exec i { s with cfg := { s.cfg with xonByte := x, xoffByte := y } } =
      .next { t with cfg := { s.cfg with xonByte := x, xoffByte := y } }

/-! ## FID -/

/-- 42_frame_id.md R125, R127, 90_conflicts.md C1 (that the value before the increment is handed out is decision D19):
the id returned and the counter after it; from a counter in 1..254 the counter stays in 1..254. -/
def Obligations.FrameIdHandedOut : Prop :=
  ∀ s : State, s.started = true →
    ∃ n : Byte, (n = if s.fidCtr = 254 then 1 else s.fidCtr + 1) ∧
      exec .fidAlloc s = .next { s with fidCtr := n, fidRet := s.fidRet ++ [s.fidCtr] } ∧
      (1 ≤ s.fidCtr.toNat → s.fidCtr.toNat ≤ 254 → 1 ≤ n.toNat ∧ n.toNat ≤ 254)

/-- 42_frame_id.md R126: after a `RESET` the `k`-th allocation, from 0, returns `((FID_SEED - 1 + k) mod 254) + 1`. -/
def Obligations.FrameIdsCycle : Prop :=
  ∀ (cfg : Config) (s t : State) (k : Nat), exec (.reset cfg) s = .next t →
    ∃ u : State, core.run k { t with pending := List.replicate k (.host .fidAlloc) } = .next u ∧
      u.fidRet = t.fidRet ++ (List.range k).map (fun j => BitVec.ofNat 8 ((cfg.fidSeed - 1 + j) % 254 + 1))

/-- 10_state.md R24, R30 item 8: only `FID.ALLOC` and `RESET` change the counter, and only `FID.ALLOC` hands out an
id. -/
def Obligations.OnlyAllocAndResetChangeTheCounter : Prop :=
  ∀ (i : Instr) (s t : State), exec i s = .next t → i ≠ .fidAlloc →
    t.fidRet = s.fidRet ∧ ((∀ cfg, i ≠ .reset cfg) → t.fidCtr = s.fidCtr)

/-! ## The buffer -/

/-- 20_memory.md R35, R37, R41: an instruction of RX that takes one byte changes the buffer in state `PAYLOAD` only, and
there at the index `rx_cnt` only; no instruction of another unit, `RESET` and `RX.FLUSH` among them, changes it. -/
def Obligations.BufferWrittenOnlyAtTheCount : Prop :=
  ∀ (i : Instr) (s t : State), exec i s = .next t →
    (i.rxOneByte → ∀ a, t.rxBuf.read a ≠ s.rxBuf.read a → s.rxState = .payload ∧ a = s.rxCnt.toNat) ∧
    (i.unit ≠ .rx → t.rxBuf = s.rxBuf)

/-! ## The whole machine -/

/-- 20_memory.md R44: instructions of different units commute: in either order they end in the same state, with the same
values returned. -/
def Obligations.UnitsCommute : Prop :=
  ∀ (i j : Instr) (s a b : State), i.unit ≠ .control → j.unit ≠ .control → i.unit ≠ j.unit →
    exec i s = .next a → exec j s = .next b → ∃ t : State, exec j a = .next t ∧ exec i b = .next t

/-- 10_state.md R15, 20_memory.md R44: an instruction of RX changes nothing outside RX. -/
def Obligations.ReceiverChangesOnlyItsOwn : Prop :=
  ∀ (i : Instr) (s t : State), i.unit = .rx → exec i s = .next t → SameOutsideRx s t

/-- 10_state.md R30: the invariants hold right after `RESET`. -/
def Obligations.ResetStateIsLive : Prop := Live State.reset

/-- 10_state.md R30: every step keeps the invariants, from every state that meets them. -/
def Obligations.EveryStepKeepsTheInvariants : Prop :=
  ∀ s t : State, Invariants s → step s = .next t → Invariants t

/-- 41_rx_assembler.md R111, 60_exceptions.md R152: from a state of a run no step faults, and a step is refused only for
a request that is no instruction: there is no stuck state. The queue of requests and the refusal are the model's (log
entries 2, 18). -/
def Obligations.NoStepOfARunFaults : Prop :=
  ∀ s : State, Live s →
    (∃ t, step s = .next t ∧ Live t) ∨
    ∃ (r : Request) (rest : List Request) (e : DecodeError), s.pending = r :: rest ∧
      decode s.cfg s.rxEsc r = .error e ∧ step s = .refused (.badRequest e)
end

