-- ==== Sys2Proof/Laws/Bytes.lean ====
section
/-! SUPPORT. The operand forms of Operands.lean: the two halves of a length, the escape pair, the sum of a payload, and
how `escape` and the sum run along a sequence. -/

namespace Sys2Proof.Machine

/-- Escaping and unescaping a byte are one operation (R59). -/
@[simp] theorem flipEsc_flipEsc (b : Byte) : flipEsc (flipEsc b) = b := by
  simp [flipEsc]

theorem hiByte_eq (n : Half) : hiByte n = BitVec.ofNat 8 (n.toNat / 256) := by
  apply BitVec.eq_of_toNat_eq; simp [hiByte, Nat.shiftRight_eq_div_pow]

theorem loByte_eq (n : Half) : loByte n = BitVec.ofNat 8 (n.toNat % 256) := by
  apply BitVec.eq_of_toNat_eq; simp [loByte]

theorem joinBytes_toNat (h l : Byte) : (joinBytes h l).toNat = h.toNat * 256 + l.toNat := by
  unfold joinBytes
  have := l.isLt
  rw [BitVec.toNat_append, ← Nat.shiftLeft_add_eq_or_of_lt (by omega)]
  simp [Nat.shiftLeft_eq]

@[simp] theorem joinBytes_halves (n : Half) : joinBytes (hiByte n) (loByte n) = n := by
  apply BitVec.eq_of_toNat_eq
  have := n.isLt
  rw [joinBytes_toNat, hiByte_eq, loByte_eq]; simp; omega

@[simp] theorem hiByte_joinBytes (h l : Byte) : hiByte (joinBytes h l) = h := by
  apply BitVec.eq_of_toNat_eq
  have := h.isLt; have := l.isLt
  rw [hiByte_eq, joinBytes_toNat]; simp; omega

@[simp] theorem loByte_joinBytes (h l : Byte) : loByte (joinBytes h l) = l := by
  apply BitVec.eq_of_toNat_eq
  have := l.isLt
  rw [loByte_eq, joinBytes_toNat]; simp; omega

/-- Replacing the low byte of a length, as a number (R103). -/
theorem setLo_toNat (n : Half) (v : Byte) : (setLo n v).toNat = n.toNat / 256 * 256 + v.toNat := by
  have := n.isLt
  rw [setLo, joinBytes_toNat, hiByte_eq]; simp; omega

theorem sumBytes_append (u v : List Byte) : sumBytes (u ++ v) = sumBytes u + sumBytes v := by
  induction u with
  | nil => simp [sumBytes]
  | cons b u ih => simp only [List.cons_append, sumBytes, ih]; omega

theorem cksum_toNat (p : List Byte) : (cksum p).toNat = 255 - sumBytes p % 256 := by
  simp [cksum]; omega

theorem escape_append (cfg : Config) (u v : List Byte) : escape cfg (u ++ v) = escape cfg u ++ escape cfg v := by
  induction u with
  | nil => rfl
  | cons b u ih => simp [escape, ih]

/-- In mode 1 nothing is escaped (R58). -/
theorem escape_of_escEn_false {cfg : Config} (h : cfg.escEn = false) (u : List Byte) : escape cfg u = u := by
  induction u with
  | nil => rfl
  | cons b u ih => simp [escape, txEscBytes, mustEscape, h, ih]

theorem mustEscape_escEn {cfg : Config} {b : Byte} (h : mustEscape cfg b = true) : cfg.escEn = true := by
  simp only [mustEscape, Bool.and_eq_true] at h; exact h.1

end Sys2Proof.Machine
end

