-- ==== Sys2Proof/Laws/Memory.lean ====
section
/-! SUPPORT. The buffer: what a write leaves, that it keeps the canonical form, and what a read-out delivers. The
statements of the provers say the same of the machine; the lemmas here are about one list. -/

namespace Sys2Proof.Machine

@[simp] theorem Memory.read_nil (a : Nat) : Memory.read [] a = unwritten := rfl

theorem Memory.read_cons_eq (c : Host.Cell) (m : Memory) (a : Nat) :
    Memory.read (c :: m) a = if c.1 = a then c.2 else Memory.read m a := rfl

/-- Below every listed index nothing is listed. -/
theorem Memory.read_of_lt (m : Memory) (a : Nat) (h : ∀ c ∈ m, a < c.1) : m.read a = unwritten := by
  induction m with
  | nil => rfl
  | cons c m ih =>
    have hc : a < c.1 := h c (by simp)
    rw [Memory.read_cons_eq, if_neg (by omega), ih (fun d hd => h d (by simp [hd]))]

theorem Memory.take_succ (m : Memory) (n : Nat) : m.take (n + 1) = m.take n ++ [m.read n] := by
  simp [Memory.take, List.range_succ]

@[simp] theorem Memory.take_zero (m : Memory) : m.take 0 = [] := rfl

@[simp] theorem Memory.length_take (m : Memory) (n : Nat) : (m.take n).length = n := by simp [Memory.take]

/-- A read-out depends only on the indices it reads. -/
theorem Memory.take_congr (m m' : Memory) (n : Nat) (h : ∀ a, a < n → m.read a = m'.read a) :
    m.take n = m'.take n := by
  simp only [Memory.take, List.map_inj_left, List.mem_range]
  exact fun a ha => h a ha

/-- The indices listed after a write are those listed before, and the one written. -/
theorem Memory.index_of_mem_write (m : Memory) (a : Nat) (v : Byte) (d : Host.Cell) (h : d ∈ m.write a v) :
    d ∈ m ∨ d = (a, v) := by
  induction m with
  | nil => unfold Memory.write Memory.cons at h; split at h <;> simp_all
  | cons c m ih =>
    unfold Memory.write Memory.cons at h
    split at h
    · rcases List.mem_cons.mp h with h | h
      · exact .inl (by simp [h])
      · rcases ih h with h | h
        · exact .inl (by simp [h])
        · exact .inr h
    all_goals (repeat' split at h) <;> simp_all <;> tauto

/-- A write leaves every other index as it was. -/
theorem Memory.read_write_of_ne (m : Memory) {a c : Nat} (v : Byte) (h : c ≠ a) :
    (m.write a v).read c = m.read c := by
  have h' : ¬ a = c := fun e => h e.symm
  induction m with
  | nil => simp only [Memory.write, Memory.cons]; split <;> simp [Memory.read_cons_eq, h']
  | cons d m ih =>
    simp only [Memory.write, Memory.cons]
    split
    · simp only [Memory.read_cons_eq, ih]
    · split
      · next hd =>
        have hd' : ¬ d.1 = c := by omega
        split <;> simp [Memory.read_cons_eq, h', hd']
      · split <;> simp [Memory.read_cons_eq, h']

/-- In canonical form a write is read back. -/
theorem Memory.read_write_self (m : Memory) (a : Nat) (v : Byte) (hw : m.wf) : (m.write a v).read a = v := by
  induction m with
  | nil => simp only [Memory.write, Memory.cons]; split <;> simp_all [Memory.read_cons_eq]
  | cons d m ih =>
    have hm : Memory.wf m := ⟨(List.pairwise_cons.mp hw.1).2, fun c hc => hw.2 c (by simp [hc])⟩
    have hlt := (List.pairwise_cons.mp hw.1).1
    have hbelow : ¬ d.1 < a → ∀ c ∈ m, a < c.1 := fun hd c hc => by have := hlt c hc; omega
    simp only [Memory.write, Memory.cons]
    split
    · rw [Memory.read_cons_eq, if_neg (by omega), ih hm]
    · next hd =>
      split
      · split
        · next hv => rw [Memory.read_of_lt m a (hbelow hd), hv]
        · simp [Memory.read_cons_eq]
      · next he =>
        split
        · next hv =>
          rw [Memory.read_of_lt (d :: m) a, hv]
          intro c hc
          rcases List.mem_cons.mp hc with rfl | hc
          · omega
          · exact hbelow hd c hc
        · simp [Memory.read_cons_eq]

/-- Putting an entry below all others in front keeps the canonical form. -/
theorem Memory.wf_cons {m : Memory} (hw : m.wf) {a : Nat} (v : Byte) (h : ∀ c ∈ m, a < c.1) :
    (Memory.cons a v m).wf := by
  unfold Memory.cons
  split
  · exact hw
  · next hv =>
    refine ⟨List.pairwise_cons.mpr ⟨h, hw.1⟩, fun c hc => ?_⟩
    rcases List.mem_cons.mp hc with rfl | hc
    · exact hv
    · exact hw.2 c hc

/-- Every write keeps the canonical form. -/
theorem Memory.wf_write (m : Memory) (a : Nat) (v : Byte) (hw : m.wf) : (m.write a v).wf := by
  induction m with
  | nil => exact Memory.wf_cons hw v (by simp)
  | cons d m ih =>
    have hm : Memory.wf m := ⟨(List.pairwise_cons.mp hw.1).2, fun c hc => hw.2 c (by simp [hc])⟩
    have hlt := (List.pairwise_cons.mp hw.1).1
    simp only [Memory.write]
    split
    · refine ⟨List.pairwise_cons.mpr ⟨fun c hc => ?_, (ih hm).1⟩, fun c hc => ?_⟩
      · rcases Memory.index_of_mem_write _ _ _ _ hc with h | rfl
        · exact hlt c h
        · assumption
      · rcases List.mem_cons.mp hc with rfl | hc
        · exact hw.2 _ (by simp)
        · exact (ih hm).2 c hc
    · next hd =>
      have hbelow : ∀ c ∈ m, a < c.1 := fun c hc => by have := hlt c hc; omega
      split
      · exact Memory.wf_cons hm v hbelow
      · refine Memory.wf_cons hw v (fun c hc => ?_)
        rcases List.mem_cons.mp hc with rfl | hc
        · omega
        · exact hbelow c hc

/-- The buffer of the reset state is in canonical form. -/
theorem State.reset_rxBuf_wf : State.reset.rxBuf.wf := ⟨List.Pairwise.nil, by simp [State.reset]⟩

end Sys2Proof.Machine
end

