-- ==== Sys2Proof/Laws/State.lean ====
section
/-! SUPPORT. The fields of the state after each shared operation that only writes registers: one lemma per field, by
definition. -/

namespace Sys2Proof.Machine

variable (s : State)

/-! startFrame -/
@[simp] theorem startFrame_started : (startFrame s).started = s.started := rfl
@[simp] theorem startFrame_cfg : (startFrame s).cfg = s.cfg := rfl
@[simp] theorem startFrame_rxState : (startFrame s).rxState = .lenMsb := rfl
@[simp] theorem startFrame_rxEsc : (startFrame s).rxEsc = s.rxEsc := rfl
@[simp] theorem startFrame_rxLen : (startFrame s).rxLen = 0 := rfl
@[simp] theorem startFrame_rxCnt : (startFrame s).rxCnt = 0 := rfl
@[simp] theorem startFrame_rxSum : (startFrame s).rxSum = 0 := rfl
@[simp] theorem startFrame_rxBuf : (startFrame s).rxBuf = s.rxBuf := rfl
@[simp] theorem startFrame_fidCtr : (startFrame s).fidCtr = s.fidCtr := rfl
@[simp] theorem startFrame_txStream : (startFrame s).txStream = s.txStream := rfl
@[simp] theorem startFrame_txRet : (startFrame s).txRet = s.txRet := rfl
@[simp] theorem startFrame_rxRet : (startFrame s).rxRet = s.rxRet := rfl
@[simp] theorem startFrame_fidRet : (startFrame s).fidRet = s.fidRet := rfl
@[simp] theorem startFrame_pending : (startFrame s).pending = s.pending := rfl

/-! countPayload -/
@[simp] theorem countPayload_started (v : Byte) : (countPayload v s).started = s.started := rfl
@[simp] theorem countPayload_cfg (v : Byte) : (countPayload v s).cfg = s.cfg := rfl
@[simp] theorem countPayload_rxState (v : Byte) :
    (countPayload v s).rxState = if s.rxCnt + 1 = s.rxLen then .checksum else s.rxState := rfl
@[simp] theorem countPayload_rxEsc (v : Byte) : (countPayload v s).rxEsc = s.rxEsc := rfl
@[simp] theorem countPayload_rxLen (v : Byte) : (countPayload v s).rxLen = s.rxLen := rfl
@[simp] theorem countPayload_rxCnt (v : Byte) : (countPayload v s).rxCnt = s.rxCnt + 1 := rfl
@[simp] theorem countPayload_rxSum (v : Byte) : (countPayload v s).rxSum = s.rxSum + v := rfl
@[simp] theorem countPayload_rxBuf (v : Byte) : (countPayload v s).rxBuf = s.rxBuf := rfl
@[simp] theorem countPayload_fidCtr (v : Byte) : (countPayload v s).fidCtr = s.fidCtr := rfl
@[simp] theorem countPayload_txStream (v : Byte) : (countPayload v s).txStream = s.txStream := rfl
@[simp] theorem countPayload_txRet (v : Byte) : (countPayload v s).txRet = s.txRet := rfl
@[simp] theorem countPayload_rxRet (v : Byte) : (countPayload v s).rxRet = s.rxRet := rfl
@[simp] theorem countPayload_fidRet (v : Byte) : (countPayload v s).fidRet = s.fidRet := rfl
@[simp] theorem countPayload_pending (v : Byte) : (countPayload v s).pending = s.pending := rfl

/-! idleRx -/
@[simp] theorem idleRx_started : (idleRx s).started = s.started := rfl
@[simp] theorem idleRx_cfg : (idleRx s).cfg = s.cfg := rfl
@[simp] theorem idleRx_rxState : (idleRx s).rxState = .awaitStart := rfl
@[simp] theorem idleRx_rxEsc : (idleRx s).rxEsc = false := rfl
@[simp] theorem idleRx_rxLen : (idleRx s).rxLen = 0 := rfl
@[simp] theorem idleRx_rxCnt : (idleRx s).rxCnt = 0 := rfl
@[simp] theorem idleRx_rxSum : (idleRx s).rxSum = 0 := rfl
@[simp] theorem idleRx_rxBuf : (idleRx s).rxBuf = s.rxBuf := rfl
@[simp] theorem idleRx_fidCtr : (idleRx s).fidCtr = s.fidCtr := rfl
@[simp] theorem idleRx_txStream : (idleRx s).txStream = s.txStream := rfl
@[simp] theorem idleRx_txRet : (idleRx s).txRet = s.txRet := rfl
@[simp] theorem idleRx_rxRet : (idleRx s).rxRet = s.rxRet := rfl
@[simp] theorem idleRx_fidRet : (idleRx s).fidRet = s.fidRet := rfl
@[simp] theorem idleRx_pending : (idleRx s).pending = s.pending := rfl

/-! rxReturn -/
@[simp] theorem rxReturn_started (r : RxReturn) : (rxReturn r s).started = s.started := rfl
@[simp] theorem rxReturn_cfg (r : RxReturn) : (rxReturn r s).cfg = s.cfg := rfl
@[simp] theorem rxReturn_rxState (r : RxReturn) : (rxReturn r s).rxState = s.rxState := rfl
@[simp] theorem rxReturn_rxEsc (r : RxReturn) : (rxReturn r s).rxEsc = s.rxEsc := rfl
@[simp] theorem rxReturn_rxLen (r : RxReturn) : (rxReturn r s).rxLen = s.rxLen := rfl
@[simp] theorem rxReturn_rxCnt (r : RxReturn) : (rxReturn r s).rxCnt = s.rxCnt := rfl
@[simp] theorem rxReturn_rxSum (r : RxReturn) : (rxReturn r s).rxSum = s.rxSum := rfl
@[simp] theorem rxReturn_rxBuf (r : RxReturn) : (rxReturn r s).rxBuf = s.rxBuf := rfl
@[simp] theorem rxReturn_fidCtr (r : RxReturn) : (rxReturn r s).fidCtr = s.fidCtr := rfl
@[simp] theorem rxReturn_txStream (r : RxReturn) : (rxReturn r s).txStream = s.txStream := rfl
@[simp] theorem rxReturn_txRet (r : RxReturn) : (rxReturn r s).txRet = s.txRet := rfl
@[simp] theorem rxReturn_rxRet (r : RxReturn) : (rxReturn r s).rxRet = s.rxRet ++ [r] := rfl
@[simp] theorem rxReturn_fidRet (r : RxReturn) : (rxReturn r s).fidRet = s.fidRet := rfl
@[simp] theorem rxReturn_pending (r : RxReturn) : (rxReturn r s).pending = s.pending := rfl

/-! txReturn -/
@[simp] theorem txReturn_started (r : TxReturn) : (txReturn r s).started = s.started := rfl
@[simp] theorem txReturn_cfg (r : TxReturn) : (txReturn r s).cfg = s.cfg := rfl
@[simp] theorem txReturn_rxState (r : TxReturn) : (txReturn r s).rxState = s.rxState := rfl
@[simp] theorem txReturn_rxEsc (r : TxReturn) : (txReturn r s).rxEsc = s.rxEsc := rfl
@[simp] theorem txReturn_rxLen (r : TxReturn) : (txReturn r s).rxLen = s.rxLen := rfl
@[simp] theorem txReturn_rxCnt (r : TxReturn) : (txReturn r s).rxCnt = s.rxCnt := rfl
@[simp] theorem txReturn_rxSum (r : TxReturn) : (txReturn r s).rxSum = s.rxSum := rfl
@[simp] theorem txReturn_rxBuf (r : TxReturn) : (txReturn r s).rxBuf = s.rxBuf := rfl
@[simp] theorem txReturn_fidCtr (r : TxReturn) : (txReturn r s).fidCtr = s.fidCtr := rfl
@[simp] theorem txReturn_txStream (r : TxReturn) : (txReturn r s).txStream = s.txStream := rfl
@[simp] theorem txReturn_txRet (r : TxReturn) : (txReturn r s).txRet = s.txRet ++ [r] := rfl
@[simp] theorem txReturn_rxRet (r : TxReturn) : (txReturn r s).rxRet = s.rxRet := rfl
@[simp] theorem txReturn_fidRet (r : TxReturn) : (txReturn r s).fidRet = s.fidRet := rfl
@[simp] theorem txReturn_pending (r : TxReturn) : (txReturn r s).pending = s.pending := rfl

/-! emit -/
@[simp] theorem emit_started (bs : List Byte) : (emit bs s).started = s.started := rfl
@[simp] theorem emit_cfg (bs : List Byte) : (emit bs s).cfg = s.cfg := rfl
@[simp] theorem emit_rxState (bs : List Byte) : (emit bs s).rxState = s.rxState := rfl
@[simp] theorem emit_rxEsc (bs : List Byte) : (emit bs s).rxEsc = s.rxEsc := rfl
@[simp] theorem emit_rxLen (bs : List Byte) : (emit bs s).rxLen = s.rxLen := rfl
@[simp] theorem emit_rxCnt (bs : List Byte) : (emit bs s).rxCnt = s.rxCnt := rfl
@[simp] theorem emit_rxSum (bs : List Byte) : (emit bs s).rxSum = s.rxSum := rfl
@[simp] theorem emit_rxBuf (bs : List Byte) : (emit bs s).rxBuf = s.rxBuf := rfl
@[simp] theorem emit_fidCtr (bs : List Byte) : (emit bs s).fidCtr = s.fidCtr := rfl
@[simp] theorem emit_txStream (bs : List Byte) : (emit bs s).txStream = s.txStream ++ bs := rfl
@[simp] theorem emit_txRet (bs : List Byte) : (emit bs s).txRet = s.txRet := rfl
@[simp] theorem emit_rxRet (bs : List Byte) : (emit bs s).rxRet = s.rxRet := rfl
@[simp] theorem emit_fidRet (bs : List Byte) : (emit bs s).fidRet = s.fidRet := rfl
@[simp] theorem emit_pending (bs : List Byte) : (emit bs s).pending = s.pending := rfl

/-! afterUnescape -/
@[simp] theorem afterUnescape_started : (afterUnescape s).started = s.started := by unfold afterUnescape; split <;> rfl
@[simp] theorem afterUnescape_cfg : (afterUnescape s).cfg = s.cfg := by unfold afterUnescape; split <;> rfl
@[simp] theorem afterUnescape_rxState : (afterUnescape s).rxState = s.rxState := by unfold afterUnescape; split <;> rfl
@[simp] theorem afterUnescape_rxLen : (afterUnescape s).rxLen = s.rxLen := by unfold afterUnescape; split <;> rfl
@[simp] theorem afterUnescape_rxCnt : (afterUnescape s).rxCnt = s.rxCnt := by unfold afterUnescape; split <;> rfl
@[simp] theorem afterUnescape_rxSum : (afterUnescape s).rxSum = s.rxSum := by unfold afterUnescape; split <;> rfl
@[simp] theorem afterUnescape_rxBuf : (afterUnescape s).rxBuf = s.rxBuf := by unfold afterUnescape; split <;> rfl
@[simp] theorem afterUnescape_fidCtr : (afterUnescape s).fidCtr = s.fidCtr := by unfold afterUnescape; split <;> rfl
@[simp] theorem afterUnescape_txStream : (afterUnescape s).txStream = s.txStream := by unfold afterUnescape; split <;> rfl
@[simp] theorem afterUnescape_txRet : (afterUnescape s).txRet = s.txRet := by unfold afterUnescape; split <;> rfl
@[simp] theorem afterUnescape_rxRet : (afterUnescape s).rxRet = s.rxRet := by unfold afterUnescape; split <;> rfl
@[simp] theorem afterUnescape_fidRet : (afterUnescape s).fidRet = s.fidRet := by unfold afterUnescape; split <;> rfl
@[simp] theorem afterUnescape_pending : (afterUnescape s).pending = s.pending := by unfold afterUnescape; split <;> rfl

/-- After the unescape stage an escape is pending only where escaping is off, where `rx_esc` means nothing (R97). -/
@[simp] theorem afterUnescape_rxEsc : (afterUnescape s).rxEsc = (s.rxEsc && !s.cfg.escEn) := by
  unfold afterUnescape escapePending
  cases he : s.cfg.escEn <;> cases hr : s.rxEsc <;> simp [hr]

theorem afterUnescape_of_none (h : s.cfg.escEn = false ∨ s.rxEsc = false) : afterUnescape s = s := by
  unfold afterUnescape escapePending
  rcases h with h | h <;> simp [h]

end Sys2Proof.Machine
end

