-- ==== Sys2Proof/Laws/Ops.lean ====
section
/-! SUPPORT. What each shared operation can do, said once: when an operation answers a next state, and the cases of the
state interpretation and of `RX.BYTE`. -/

namespace Sys2Proof.Machine

open Host

theorem afterReset_eq {s : State} (h : s.started = true) (o : Out) : afterReset s o = o := by
  simp [afterReset, h]

theorem afterReset_next {s t : State} {o : Out} : afterReset s o = .next t ↔ s.started = true ∧ o = .next t := by
  unfold afterReset; split <;> simp_all

theorem rxEvent_next {r : Except Fault (Event × State)} {t : State} :
    rxEvent r = .next t ↔ ∃ e u, r = .ok (e, u) ∧ t = rxReturn (.event e) u := by
  rcases r with f | ⟨e, u⟩
  · simp [rxEvent]
  · simp [rxEvent, eq_comm]

theorem rxEvents_next {r : Except Fault (List Event × State)} {t : State} :
    rxEvents r = .next t ↔ ∃ es u, r = .ok (es, u) ∧ t = rxReturn (.chunk es) u := by
  rcases r with f | ⟨e, u⟩
  · simp [rxEvents]
  · simp [rxEvents, eq_comm]

/-- The refusal adds the event, with the payload's length, to what TX returned, and changes nothing else (R87, R150). -/
theorem refuseSend_eq (p : List Byte) (s : State) :
    refuseSend p s = { s with txRet := s.txRet ++ [.event (.txRefused p.length)] } := rfl

/-- All that `TX.SEND` does: a refusal, or one frame emitted and `NONE` returned (R86, R87). -/
theorem sendFrame_eq (p : List Byte) (s : State) :
    sendFrame p s =
      if s.cfg.maxLen < p.length then { s with txRet := s.txRet ++ [.event (.txRefused p.length)] }
      else { s with txStream := s.txStream ++ wireFrame s.cfg p, txRet := s.txRet ++ [.event .none] } := by
  simp only [sendFrame, tooLong, refuseSend_eq, decide_eq_true_eq]; rfl

theorem memWrite_ok {a : Nat} {v : Byte} {s t : State} :
    memWrite a v s = .ok t ↔ a < s.cfg.maxLen ∧ t = { s with rxBuf := s.rxBuf.write a v } := by
  unfold memWrite; split <;> simp_all [eq_comm]

theorem memRead_ok {n : Nat} {s : State} {p : List Byte} :
    memRead n s = .ok p ↔ n ≤ s.cfg.maxLen ∧ p = s.rxBuf.take n := by
  unfold memRead; split <;> simp_all [eq_comm]

/-- The state interpretation, case by case (R110, last column). -/
theorem interpret_cases {v : Byte} {s t : State} {e : Event} (h : interpret v s = .ok (e, t)) :
    (s.rxState = .awaitStart ∧ e = .none ∧ t = s) ∨
    (s.rxState = .lenMsb ∧ e = .none ∧ t = { s with rxLen := joinBytes v 0, rxState := .lenLsb }) ∨
    (s.rxState = .lenLsb ∧ overlen s.cfg (setLo s.rxLen v) = true ∧ e = .dropOverlen ∧
      t = { s with rxLen := setLo s.rxLen v, rxState := .awaitStart }) ∨
    (s.rxState = .lenLsb ∧ overlen s.cfg (setLo s.rxLen v) = false ∧ e = .none ∧
      t = { s with rxLen := setLo s.rxLen v,
                   rxState := if setLo s.rxLen v = 0 then .checksum else .payload }) ∨
    (s.rxState = .payload ∧ s.rxCnt.toNat < s.cfg.maxLen ∧ e = .none ∧
      t = countPayload v { s with rxBuf := s.rxBuf.write s.rxCnt.toNat v }) ∨
    (s.rxState = .checksum ∧ sumMatches s.rxSum v = true ∧ s.rxLen.toNat ≤ s.cfg.maxLen ∧
      e = .frame (s.rxBuf.take s.rxLen.toNat) ∧ t = { s with rxState := .awaitStart }) ∨
    (s.rxState = .checksum ∧ sumMatches s.rxSum v = false ∧ e = .dropChecksum ∧
      t = { s with rxState := .awaitStart }) := by
  unfold interpret at h
  cases hq : s.rxState <;> rw [hq] at h <;> dsimp only at h
  case awaitStart =>
    simp only [onAwaitStart, raise, Except.ok.injEq, Prod.mk.injEq] at h
    obtain ⟨rfl, rfl⟩ := h
    simp
  case lenMsb =>
    simp only [onLenMsb, raise, Except.ok.injEq, Prod.mk.injEq] at h
    obtain ⟨rfl, rfl⟩ := h
    simp
  case lenLsb =>
    unfold onLenLsb at h
    split at h
    next ho =>
      simp only [raise, Except.ok.injEq, Prod.mk.injEq] at h
      obtain ⟨rfl, rfl⟩ := h
      simp [ho]
    next ho =>
      split at h <;> simp only [raise, Except.ok.injEq, Prod.mk.injEq] at h <;> obtain ⟨rfl, rfl⟩ := h <;> simp_all
  case payload =>
    unfold onPayload at h
    split at h
    · cases h
    next u hu =>
      simp only [raise, Except.ok.injEq, Prod.mk.injEq] at h
      obtain ⟨rfl, rfl⟩ := h
      obtain ⟨ha, rfl⟩ := memWrite_ok.mp hu
      simp [ha, hq]
  case checksum =>
    unfold onChecksum at h
    split at h
    next hm =>
      split at h
      · cases h
      next p hp =>
        simp only [raise, Except.ok.injEq, Prod.mk.injEq] at h
        obtain ⟨rfl, rfl⟩ := h
        obtain ⟨ha, rfl⟩ := memRead_ok.mp hp
        simp [hm, ha]
    next hm =>
      simp only [raise, Except.ok.injEq, Prod.mk.injEq] at h
      obtain ⟨rfl, rfl⟩ := h
      simp [hm]

/-- `RX.BYTE`, stage by stage (R95): an introducer, a start, or a logical byte that the state interprets. -/
theorem receiveByte_eq (b : Byte) (s : State) :
    receiveByte b s =
      if s.cfg.escEn = true ∧ s.rxEsc = true then interpret (b ^^^ 0x20#8) { s with rxEsc := false }
      else if s.cfg.escEn = true ∧ b = 0x7D#8 then .ok (.none, { s with rxEsc := true })
      else if b = 0x7E#8 then .ok (startDetected s)
      else interpret b s := by
  unfold receiveByte unescapeStage logicalByte escapePending introducesEscape isStart flipEsc raise
  simp only [startByte, escapeByte, escXor, Bool.and_eq_true, beq_iff_eq]
  by_cases h1 : s.cfg.escEn = true ∧ s.rxEsc = true
  · simp [h1]
  · have hr : s.cfg.escEn = true → s.rxEsc = false := fun h => by simpa [h] using h1
    by_cases h2 : s.cfg.escEn = true ∧ b = 0x7D#8
    · simp [h2, hr h2.1]
    · by_cases h3 : b = 0x7E#8 <;> simp [h1, h2, h3]

theorem startDetected_eq (s : State) :
    startDetected s = (if s.rxState = .awaitStart then .none else .dropAbort, startFrame s) := by
  unfold startDetected; split <;> simp_all [raise]

/-- What an instruction of RX that takes one byte runs: `RX.BYTE` on a wire byte, or the state interpretation of a
logical byte. -/
def rxCore : Instr → State → Except Fault (Event × State)
  | .escaped b, s => receiveByte b s
  | .escIntro, s => receiveByte 0x7D#8 s
  | .start, s => receiveByte 0x7E#8 s
  | .data b, s => receiveByte b s
  | .awaitStart v, s => interpret v (afterUnescape s)
  | .lenMsb v, s => interpret v (afterUnescape s)
  | .lenLsb v, s => interpret v (afterUnescape s)
  | .payload v, s => interpret v (afterUnescape s)
  | .checksum v, s => interpret v (afterUnescape s)
  | .evNone b, s => receiveByte b s
  | .evFrame v, s => interpret v (afterUnescape s)
  | .evDropChecksum v, s => interpret v (afterUnescape s)
  | .evDropAbort, s => receiveByte 0x7E#8 s
  | .evDropOverlen v, s => interpret v (afterUnescape s)
  | .rxByte b, s => receiveByte b s
  | _, s => .ok (.none, s)

/-- A row of the byte-class or state table, where its condition holds, has the effect that its unit's stages have; so
each instruction of RX that takes one byte is `rxCore` of it. -/
theorem exec_rxOneByte (i : Instr) (s : State) (h : i.rxOneByte) :
    exec i s = afterReset s (rxEvent (rxCore i s)) := by
  obtain ⟨hu, hc⟩ := h
  cases i <;> simp only [Instr.unit, reduceCtorEq] at hu <;> unfold exec <;> dsimp only [rxCore]
  case rxChunk bs => exact absurd rfl (hc bs)
  case rxByte b => rfl
  case evNone b => rfl
  case escaped b =>
    unfold execEscaped
    rw [receiveByte_eq]
    by_cases h1 : s.cfg.escEn = true ∧ s.rxEsc = true <;> simp [escapePending, flipEsc, escXor, h1]
  case escIntro =>
    unfold execEscIntro
    simp only [escapeByte, receiveByte_eq]
    congr 2
    cases s.cfg.escEn <;> cases s.rxEsc <;> simp [raise]
  case start =>
    unfold execStart
    simp only [startByte, receiveByte_eq]
    congr 2
    cases s.cfg.escEn <;> cases s.rxEsc <;> simp [escapePending]
  case data b =>
    unfold execData escapePending introducesEscape
    simp only [receiveByte_eq, startByte, escapeByte]
    congr 2
    by_cases h1 : s.cfg.escEn = true ∧ s.rxEsc = true
    · simp [h1]
    · by_cases h2 : s.cfg.escEn = true ∧ b = 0x7D#8 <;> by_cases h3 : b = 0x7E#8 <;> simp [h1, h2, h3]
  case evDropAbort =>
    unfold execEvDropAbort
    simp only [receiveByte_eq, startByte]
    congr 2
    cases s.cfg.escEn <;> cases s.rxEsc <;> cases hq : s.rxState <;>
      simp [escapePending, startDetected_eq, raise, hq]
  case awaitStart v => unfold execAwaitStart interpret; cases hq : s.rxState <;> simp [hq]
  case lenMsb v => unfold execLenMsb interpret; cases hq : s.rxState <;> simp [hq]
  case lenLsb v => unfold execLenLsb interpret; cases hq : s.rxState <;> simp [hq]
  case payload v => unfold execPayload interpret; cases hq : s.rxState <;> simp [hq]
  case checksum v => unfold execChecksum interpret; cases hq : s.rxState <;> simp [hq]
  case evFrame v =>
    unfold execEvFrame interpret
    cases hq : s.rxState <;> cases hm : sumMatches s.rxSum v <;> (simp [onChecksum, hm, hq]; try rfl)
  case evDropChecksum v =>
    unfold execEvDropChecksum interpret
    cases hq : s.rxState <;> cases hm : sumMatches s.rxSum v <;> simp [onChecksum, hm, hq]
  case evDropOverlen v =>
    unfold execEvDropOverlen interpret
    cases hq : s.rxState <;> cases hm : overlen s.cfg (setLo s.rxLen v) <;> simp [onLenLsb, hm, hq]

/-- The state interpretation changes nothing outside RX, and not `rx_esc`. -/
theorem interpret_frame {v : Byte} {s t : State} {e : Event} (h : interpret v s = .ok (e, t)) :
    SameOutsideRx s t ∧ t.rxRet = s.rxRet ∧ t.rxEsc = s.rxEsc ∧ ∀ n, e ≠ .txRefused n := by
  rcases interpret_cases h with ⟨-, rfl, rfl⟩ | ⟨-, rfl, rfl⟩ | ⟨-, -, rfl, rfl⟩ | ⟨-, -, rfl, rfl⟩ |
    ⟨-, -, rfl, rfl⟩ | ⟨-, -, -, rfl, rfl⟩ | ⟨-, -, rfl, rfl⟩ <;> simp [SameOutsideRx]

/-- One byte changes nothing outside RX. -/
theorem receiveByte_frame {b : Byte} {s t : State} {e : Event} (h : receiveByte b s = .ok (e, t)) :
    SameOutsideRx s t ∧ t.rxRet = s.rxRet ∧ ∀ n, e ≠ .txRefused n := by
  rw [receiveByte_eq] at h
  split at h
  · have := interpret_frame h; exact ⟨this.1, this.2.1, this.2.2.2⟩
  split at h
  · simp only [Except.ok.injEq, Prod.mk.injEq] at h
    obtain ⟨rfl, rfl⟩ := h
    simp [SameOutsideRx]
  split at h
  · rw [startDetected_eq] at h
    simp only [Except.ok.injEq, Prod.mk.injEq] at h
    obtain ⟨rfl, rfl⟩ := h
    refine ⟨by simp [SameOutsideRx], rfl, ?_⟩
    split <;> simp
  · have := interpret_frame h; exact ⟨this.1, this.2.1, this.2.2.2⟩

@[simp] theorem receiveBytes_nil (s : State) : receiveBytes [] s = .ok ([], s) := rfl

/-- The loop over two sequences one after the other. -/
theorem receiveBytes_append (xs ys : List Byte) (s : State) :
    receiveBytes (xs ++ ys) s =
      match receiveBytes xs s with
      | .error f => .error f
      | .ok (es, t) =>
        match receiveBytes ys t with
        | .error f => .error f
        | .ok (fs, u) => .ok (es ++ fs, u) := by
  induction xs generalizing s with
  | nil => cases h : receiveBytes ys s <;> simp [h]
  | cons b xs ih =>
    simp only [List.cons_append, receiveBytes]
    cases receiveByte b s with
    | error f => rfl
    | ok p =>
      obtain ⟨e, t⟩ := p
      simp only [ih]
      cases receiveBytes xs t with
      | error f => rfl
      | ok p =>
        obtain ⟨es, u⟩ := p
        dsimp only
        cases receiveBytes ys u with
        | error f => rfl
        | ok p => simp only [reportIn]; split <;> rfl

/-- A chunk changes nothing outside RX, and reports no `NONE`. -/
theorem receiveBytes_frame {bs : List Byte} {s t : State} {es : List Event} (h : receiveBytes bs s = .ok (es, t)) :
    SameOutsideRx s t ∧ t.rxRet = s.rxRet ∧ es.length ≤ bs.length ∧ .none ∉ es := by
  induction bs generalizing s es with
  | nil =>
    simp only [receiveBytes_nil, Except.ok.injEq, Prod.mk.injEq] at h
    obtain ⟨rfl, rfl⟩ := h
    simp [SameOutsideRx]
  | cons b bs ih =>
    simp only [receiveBytes] at h
    cases h1 : receiveByte b s with
    | error f => simp [h1] at h
    | ok p =>
      obtain ⟨e, u⟩ := p
      simp only [h1] at h
      cases h2 : receiveBytes bs u with
      | error f => simp [h2] at h
      | ok p =>
        obtain ⟨fs, w⟩ := p
        simp only [h2, Except.ok.injEq, Prod.mk.injEq] at h
        obtain ⟨rfl, rfl⟩ := h
        obtain ⟨⟨a1, a2, a3, a4, a5, a6, a7⟩, a8, -⟩ := receiveByte_frame h1
        obtain ⟨⟨b1, b2, b3, b4, b5, b6, b7⟩, b8, b9, b10⟩ := ih h2
        refine ⟨⟨by rw [b1, a1], by rw [b2, a2], by rw [b3, a3], by rw [b4, a4], by rw [b5, a5], by rw [b6, a6],
          by rw [b7, a7]⟩, by rw [b8, a8], ?_, ?_⟩
        · unfold reportIn; split <;> simp <;> omega
        · unfold reportIn; split
          · exact b10
          · next hn => simp [b10, Ne.symm hn]

/-- A step that answers a next state, in a run. -/
theorem run_succ_of_next (M : Host.Core) (k : Nat) (s t : M.State) (h : M.step s = .next t) :
    M.run (k + 1) s = M.run k t := by
  rw [Host.Core.run.eq_2, h]

end Sys2Proof.Machine
end

