-- ==== Sys2Proof/Laws/PerInstr.lean ====
section
/-! SUPPORT. Statements about every instruction as syntax, one lemma per constructor (LAWS.json): `EncodeFormat`, the
request that presents an instruction is of the format of the instruction's row (30_encoding.md rule R67). -/

namespace Sys2Proof.Laws.EncodeFormat

/-- An instruction is presented under the format of its row, in every configuration. -/
def Statement (i : Instr) : Prop := ∀ cfg : Config, (encode cfg i).format = i.format

theorem rawFrame (p : List Byte) : Statement (.rawFrame p) := fun _ => rfl
theorem escaped (b : Byte) : Statement (.escaped b) := fun _ => rfl
theorem escIntro : Statement .escIntro := fun _ => rfl
theorem start : Statement .start := fun _ => rfl
theorem data (b : Byte) : Statement (.data b) := fun _ => rfl
theorem escStart : Statement .escStart := fun _ => rfl
theorem escEscape : Statement .escEscape := fun _ => rfl
theorem escXon : Statement .escXon := fun _ => rfl
theorem escXoff : Statement .escXoff := fun _ => rfl
theorem literal (lead : Bool) (b : Byte) : Statement (.literal lead b) := fun _ => rfl
theorem awaitStart (v : Byte) : Statement (.awaitStart v) := fun _ => rfl
theorem lenMsb (v : Byte) : Statement (.lenMsb v) := fun _ => rfl
theorem lenLsb (v : Byte) : Statement (.lenLsb v) := fun _ => rfl
theorem payload (v : Byte) : Statement (.payload v) := fun _ => rfl
theorem checksum (v : Byte) : Statement (.checksum v) := fun _ => rfl
theorem evNone (b : Byte) : Statement (.evNone b) := fun _ => rfl
theorem evFrame (v : Byte) : Statement (.evFrame v) := fun _ => rfl
theorem evDropChecksum (v : Byte) : Statement (.evDropChecksum v) := fun _ => rfl
theorem evDropAbort : Statement .evDropAbort := fun _ => rfl
theorem evDropOverlen (v : Byte) : Statement (.evDropOverlen v) := fun _ => rfl
theorem evTxRefused (p : List Byte) : Statement (.evTxRefused p) := fun _ => rfl
theorem txCksum (p : List Byte) : Statement (.txCksum p) := fun _ => rfl
theorem txHeader (n : Half) : Statement (.txHeader n) := fun _ => rfl
theorem txEsc (b : Byte) : Statement (.txEsc b) := fun _ => rfl
theorem txSend (p : List Byte) : Statement (.txSend p) := fun _ => rfl
theorem rxByte (b : Byte) : Statement (.rxByte b) := fun _ => rfl
theorem rxChunk (bs : List Byte) : Statement (.rxChunk bs) := fun _ => rfl
theorem fidAlloc : Statement .fidAlloc := fun _ => rfl
theorem reset (c : Config) : Statement (.reset c) := fun _ => rfl
theorem rxFlush : Statement .rxFlush := fun _ => rfl

end Sys2Proof.Laws.EncodeFormat
end

