-- ==== Sys2Proof/Tests/Slice0.lean ====
section
/-! SUPPORT. Tests. Expected values come from spec/95_test_vectors.md and from the examples of the rules named at each
test. After them, for each statement with hypotheses, a concrete state and operands that meet all of them. -/

namespace Sys2Proof.Tests

open Sys2Proof Sys2Proof.Machine Host

/-! ## Helpers -/

/-- The next state of an outcome. -/
def nextOf : Out → Option State
  | .next t => some t
  | _ => none

/-- The reason of a fault. -/
def faultOf : Out → Option Fault
  | .fault f => some f
  | _ => none

/-- The reason of a refusal. -/
def refusalOf : Out → Option Refusal
  | .refused r => some r
  | _ => none

/-- What TX returned last. -/
def lastTx (o : Out) : Option TxReturn := (nextOf o).bind (fun t => t.txRet.getLast?)

/-- What RX returned last. -/
def lastRx (o : Out) : Option RxReturn := (nextOf o).bind (fun t => t.rxRet.getLast?)

/-- The registers `rx_state`, `rx_esc`, `rx_len`, `rx_cnt`, `rx_sum`. -/
structure Regs where
  rxState : RxState
  rxEsc : Bool
  rxLen : Half
  rxCnt : Half
  rxSum : Byte
deriving DecidableEq, Repr

/-- The registers of RX after an instruction. -/
def regsOf (o : Out) : Option Regs := (nextOf o).map (fun t => ⟨t.rxState, t.rxEsc, t.rxLen, t.rxCnt, t.rxSum⟩)

/-- After `RESET` with the default configuration. -/
def s0 : State := State.reset

/-- After `RESET` with `ESC_EN = 0`. -/
def mode1 : State := { State.reset with cfg := { Config.default with escEn := false } }

/-- After `RESET` with `MAX_LEN = 256`. -/
def small : State := { State.reset with cfg := { Config.default with maxLen := 256 } }

/-- After `7E 00 02 10`. -/
def inPayload : State :=
  { State.reset with rxState := .payload, rxLen := 2, rxCnt := 1, rxSum := 0x10, rxBuf := [(0, 0x10)] }

/-- After `7E 00 02 10 7D`. -/
def inPayloadEsc : State := { inPayload with rxEsc := true }

/-- After `7E 00 02 8A 06`. -/
def inChecksum : State :=
  { State.reset with rxState := .checksum, rxLen := 2, rxCnt := 2, rxSum := 0x90, rxBuf := [(0, 0x8A), (1, 0x06)] }

/-- After `7E`. -/
def inLenMsb : State := { State.reset with rxState := .lenMsb }

/-- After `7E 00`. -/
def inLenLsb : State := { State.reset with rxState := .lenLsb }

/-- After `7E 01` with `MAX_LEN = 256`. -/
def smallLenLsb : State := { small with rxState := .lenLsb, rxLen := 0x0100 }

/-- Before the first `RESET`. -/
def unstarted : State := { State.reset with started := false }

/-! ## Well-formedness: an ill-formed operand for each check -/

theorem test_wellFormed_rawFrame_length : (Instr.rawFrame (List.replicate 65536 0)).wellFormed = false := by
  rw [Instr.wellFormed, List.length_replicate]; rfl

theorem test_wellFormed_txCksum_length : (Instr.txCksum (List.replicate 65536 0)).wellFormed = false := by
  rw [Instr.wellFormed, List.length_replicate]; rfl

theorem test_wellFormed_data_start : (Instr.data 0x7E).wellFormed = false := by decide

theorem test_wellFormed_literal_lead : (Instr.literal true 0x11).wellFormed = false := by decide

theorem test_wellFormed_reset_maxLen :
    (Instr.reset { maxLen := 0 }).wellFormed = false ∧ (Instr.reset { maxLen := 65536 }).wellFormed = false := by decide

theorem test_wellFormed_reset_fidSeed :
    (Instr.reset { fidSeed := 0 }).wellFormed = false ∧ (Instr.reset { fidSeed := 255 }).wellFormed = false := by decide

/-- U4: what the checks refuse is refused by name. -/
theorem test_decode_refuses_ill_formed :
    decode Config.default false (.host (.reset { maxLen := 0 })) = .error .operandOutOfRange ∧
    decode Config.default false (.host (.reset { fidSeed := 255 })) = .error .operandOutOfRange ∧
    decode Config.default false (.host (.data 0x55)) = .error .notAHostOp := ⟨rfl, rfl, rfl⟩

/-! ## Decoding: words written out from the encodings -/

/-- 30_encoding.md R55, vector V1 of 95_test_vectors.md. -/
theorem test_decode_frame :
    decode Config.default false (.bits .frame [0x7E, 0x00, 0x04, 0x08, 0x01, 0x4E, 0x44, 0x64]) =
      .ok (.rawFrame [0x08, 0x01, 0x4E, 0x44]) ∧
    decode Config.default false (.bits .frame [0x7E, 0x00, 0x00, 0xFF]) = .ok (.rawFrame []) := ⟨rfl, rfl⟩

/-- R55: a wrong delimiter, a wrong length and a wrong checksum are rejected. -/
theorem test_decode_frame_rejects :
    decode Config.default false (.bits .frame [0x7D, 0x00, 0x00, 0xFF]) = .error .notAStart ∧
    decode Config.default false (.bits .frame [0x7E, 0x00, 0x01, 0xFF]) = .error .wrongLength ∧
    decode Config.default false (.bits .frame [0x7E, 0x00, 0x00, 0xFE]) = .error .wrongChecksum := ⟨rfl, rfl, rfl⟩

/-- 30_encoding.md R60: the four classes, and that row 1 comes before rows 2 and 3. -/
theorem test_decode_rx_byte :
    decode Config.default true (.bits .rxByte [0x5E]) = .ok (.escaped 0x5E) ∧
    decode Config.default true (.bits .rxByte [0x7D]) = .ok (.escaped 0x7D) ∧
    decode Config.default true (.bits .rxByte [0x7E]) = .ok (.escaped 0x7E) ∧
    decode Config.default false (.bits .rxByte [0x7D]) = .ok .escIntro ∧
    decode Config.default false (.bits .rxByte [0x7E]) = .ok .start ∧
    decode Config.default false (.bits .rxByte [0x55]) = .ok (.data 0x55) := ⟨rfl, rfl, rfl, rfl, rfl, rfl⟩

/-- R60, R62: with `ESC_EN = 0` every byte is `START` or `DATA`. -/
theorem test_decode_rx_byte_mode1 :
    decode mode1.cfg false (.bits .rxByte [0x7D]) = .ok (.data 0x7D) ∧
    decode mode1.cfg false (.bits .rxByte [0x7E]) = .ok .start := ⟨rfl, rfl⟩

/-- 40_tx_encoder.md R84 and the table of 30_encoding.md R59. -/
theorem test_decode_tx_byte :
    decode Config.default false (.bits (.txByte false) [0x7E]) = .ok .escStart ∧
    decode Config.default false (.bits (.txByte false) [0x7D]) = .ok .escEscape ∧
    decode Config.default false (.bits (.txByte false) [0x11]) = .ok .escXon ∧
    decode Config.default false (.bits (.txByte false) [0x13]) = .ok .escXoff ∧
    decode Config.default false (.bits (.txByte false) [0x5E]) = .ok (.literal false 0x5E) ∧
    decode Config.default false (.bits (.txByte true) [0x7E]) = .ok (.literal true 0x7E) :=
  ⟨rfl, rfl, rfl, rfl, rfl, rfl⟩

/-- 10_state.md R16: the codes 0 to 4; 5 is held by no state (U3). -/
theorem test_decode_rx_state :
    decode Config.default false (.bits .rxState [0, 0x55]) = .ok (.awaitStart 0x55) ∧
    decode Config.default false (.bits .rxState [1, 0x55]) = .ok (.lenMsb 0x55) ∧
    decode Config.default false (.bits .rxState [2, 0x55]) = .ok (.lenLsb 0x55) ∧
    decode Config.default false (.bits .rxState [3, 0x55]) = .ok (.payload 0x55) ∧
    decode Config.default false (.bits .rxState [4, 0x55]) = .ok (.checksum 0x55) ∧
    decode Config.default false (.bits .rxState [5, 0x55]) = .error .reservedStateCode :=
  ⟨rfl, rfl, rfl, rfl, rfl, rfl⟩

/-- 60_exceptions.md R141: the codes 0 to 5. -/
theorem test_decode_event :
    decode Config.default false (.bits .event [0, 0x55]) = .ok (.evNone 0x55) ∧
    decode Config.default false (.bits .event [1, 0x6F]) = .ok (.evFrame 0x6F) ∧
    decode Config.default false (.bits .event [2, 0x6E]) = .ok (.evDropChecksum 0x6E) ∧
    decode Config.default false (.bits .event [3]) = .ok .evDropAbort ∧
    decode Config.default false (.bits .event [4, 0x01]) = .ok (.evDropOverlen 0x01) ∧
    decode Config.default false (.bits .event [5, 0x81]) = .ok (.evTxRefused [0x81]) ∧
    decode Config.default false (.bits .event [6]) = .error .reservedEventCode :=
  ⟨rfl, rfl, rfl, rfl, rfl, rfl, rfl⟩

/-- 30_encoding.md R65: the operations have no bit pattern and are presented as themselves. -/
theorem test_decode_host_op :
    decode Config.default false (.host (.txCksum [0x81])) = .ok (.txCksum [0x81]) ∧
    decode Config.default false (.host (.txHeader 4)) = .ok (.txHeader 4) ∧
    decode Config.default false (.host (.txEsc 0x7E)) = .ok (.txEsc 0x7E) ∧
    decode Config.default false (.host (.txSend [])) = .ok (.txSend []) ∧
    decode Config.default false (.host (.rxByte 0x7E)) = .ok (.rxByte 0x7E) ∧
    decode Config.default false (.host (.rxChunk [0x7E])) = .ok (.rxChunk [0x7E]) ∧
    decode Config.default false (.host .fidAlloc) = .ok .fidAlloc ∧
    decode Config.default false (.host (.reset Config.default)) = .ok (.reset Config.default) ∧
    decode Config.default false (.host .rxFlush) = .ok .rxFlush := ⟨rfl, rfl, rfl, rfl, rfl, rfl, rfl, rfl, rfl⟩

/-- Bare table words (log entry 12), and that `step` runs the one it is given. -/
theorem test_decodeTableWord :
    decodeTableWord 8 0x7D = some .escIntro ∧ decodeTableWord 8 0x7E = some .start ∧
    decodeTableWord 8 0x11 = some .escXon ∧ decodeTableWord 8 3 = some (.payload 0) ∧
    decodeTableWord 8 5 = some (.evTxRefused []) ∧
    nextOf (step (State.reset.withFetchWord 8 0x7D)) = nextOf (exec .escIntro State.reset) := by decide

/-! ## TX -/

/-- 95_test_vectors.md section 2.1. -/
theorem test_txCksum :
    lastTx (exec (.txCksum []) s0) = some (.byte 0xFF) ∧ lastTx (exec (.txCksum [0xFF, 0xFF]) s0) = some (.byte 0x01) ∧
    lastTx (exec (.txCksum [0x08, 0x01, 0x4E, 0x44]) s0) = some (.byte 0x64) := by decide

/-- Section 2.2. -/
theorem test_txHeader :
    lastTx (exec (.txHeader 4352) s0) = some (.bytes [0x11, 0x00]) ∧
    lastTx (exec (.txHeader 32381) s0) = some (.bytes [0x7E, 0x7D]) ∧
    lastTx (exec (.txHeader 255) s0) = some (.bytes [0x00, 0xFF]) := by decide

/-- Section 2.3, first rows: the four reserved bytes, and a byte that is not. -/
theorem test_txEsc :
    lastTx (exec (.txEsc 0x7E) s0) = some (.bytes [0x7D, 0x5E]) ∧
    lastTx (exec (.txEsc 0x13) s0) = some (.bytes [0x7D, 0x33]) ∧
    lastTx (exec (.txEsc 0x5E) s0) = some (.bytes [0x5E]) ∧
    lastTx (exec (.txEsc 0x7E) mode1) = some (.bytes [0x7E]) := by decide

/-- Section 2.3, last two rows: `XON_BYTE = 0x91`. -/
theorem test_txEsc_xon_configured :
    let s : State := { s0 with cfg := { Config.default with xonByte := 0x91 } }
    lastTx (exec (.txEsc 0x11) s) = some (.bytes [0x11]) ∧
    lastTx (exec (.txEsc 0x91) s) = some (.bytes [0x7D, 0xB1]) := by decide

/-- 30_encoding.md R59, the four pairs. -/
theorem test_tx_byte_rows :
    lastTx (exec .escStart s0) = some (.bytes [0x7D, 0x5E]) ∧ lastTx (exec .escEscape s0) = some (.bytes [0x7D, 0x5D]) ∧
    lastTx (exec .escXon s0) = some (.bytes [0x7D, 0x31]) ∧ lastTx (exec .escXoff s0) = some (.bytes [0x7D, 0x33]) ∧
    lastTx (exec (.literal true 0x7E) s0) = some (.bytes [0x7E]) ∧
    lastTx (exec (.literal false 0x31) s0) = some (.bytes [0x31]) := by decide

/-- Vector V3, both modes. -/
theorem test_txSend_reserved_bytes :
    (nextOf (exec (.txSend [0x11, 0x13, 0x7D, 0x7E]) s0)).map State.txStream =
      some [0x7E, 0x00, 0x04, 0x7D, 0x31, 0x7D, 0x33, 0x7D, 0x5D, 0x7D, 0x5E, 0xE0] ∧
    (nextOf (exec (.txSend [0x11, 0x13, 0x7D, 0x7E]) mode1)).map State.txStream =
      some [0x7E, 0x00, 0x04, 0x11, 0x13, 0x7D, 0x7E, 0xE0] := by decide

/-- Vector V6: the checksum is itself reserved. -/
theorem test_txSend_checksum_escaped :
    (nextOf (exec (.txSend [0x81]) s0)).map State.txStream = some [0x7E, 0x00, 0x01, 0x81, 0x7D, 0x5E] := by decide

/-- 40_tx_encoder.md R87 with `MAX_LEN = 1`: two bytes are refused and nothing is emitted; one byte is sent. -/
theorem test_tx_refused :
    let s : State := { s0 with cfg := { Config.default with maxLen := 1 } }
    nextOf (exec (.txSend [0, 0]) s) = some { s with txRet := [.event (.txRefused 2)] } ∧
    nextOf (exec (.evTxRefused [0, 0]) s) = some { s with txRet := [.event (.txRefused 2)] } ∧
    lastTx (exec (.txSend [0]) s) = some (.event .none) := by decide

/-- Vector V2 before escaping. -/
theorem test_rawFrame :
    lastTx (exec (.rawFrame [0x7E]) s0) = some (.bytes [0x7E, 0x00, 0x01, 0x7E, 0x81]) := by decide

/-! ## RX -/

/-- 95_test_vectors.md section 2.7, M1: noise, a corrupted frame, the next frame received; the registers after it. -/
theorem test_rxChunk_M1 :
    let o := exec (.rxChunk [0x00, 0x55, 0x7E, 0x00, 0x04, 0x08, 0x01, 0x4F, 0x44, 0x64,
      0x7E, 0x00, 0x02, 0x8A, 0x06, 0x6F]) s0
    lastRx o = some (.chunk [.dropChecksum, .frame [0x8A, 0x06]]) ∧
    regsOf o = some ⟨.awaitStart, false, 2, 2, 0x90⟩ := by decide

/-- M3: a stray `ESCAPE` in the checksum position swallows the next start. -/
theorem test_rxChunk_M3 :
    lastRx (exec (.rxChunk [0x7E, 0x00, 0x01, 0x10, 0x7D, 0x7E, 0x00, 0x02, 0x8A, 0x06, 0x6F,
      0x7E, 0x00, 0x02, 0x8A, 0x06, 0x6F]) s0) = some (.chunk [.dropChecksum, .frame [0x8A, 0x06]]) := by decide

/-- M8: length 257 refused on the low length byte with `MAX_LEN = 256`. -/
theorem test_rxChunk_M8 :
    lastRx (exec (.rxChunk [0x7E, 0x01, 0x01, 0xAA, 0x7E, 0x00, 0x01, 0x00, 0xFF]) small) =
      some (.chunk [.dropOverlen, .frame [0x00]]) := by decide

/-- M9: mode 1 cannot carry `7E`. -/
theorem test_rxChunk_M9 :
    let o := exec (.rxChunk [0x7E, 0x00, 0x03, 0x10, 0x7E, 0x20, 0x51]) mode1
    lastRx o = some (.chunk [.dropAbort]) ∧ regsOf o = some ⟨.payload, false, 0x2051, 0, 0⟩ := by decide

/-- M5, M6: an `ESCAPE` between frames, and `7D 7D`. -/
theorem test_rxChunk_escapes :
    lastRx (exec (.rxChunk [0x7D, 0x7E, 0x00, 0x00, 0xFF, 0x7D, 0x5E, 0x7E, 0x00, 0x00, 0xFF]) s0) =
      some (.chunk [.frame []]) ∧
    lastRx (exec (.rxChunk [0x7E, 0x00, 0x01, 0x7D, 0x7D, 0xA2]) s0) = some (.chunk [.frame [0x5D]]) := by decide

/-- 41_rx_assembler.md R96, example; 95_test_vectors.md P3: the start swallowed by a pending escape (`rx_sum = 6E`). -/
theorem test_rxByte_escape :
    regsOf (exec (.rxByte 0x7D) inPayload) = some ⟨.payload, true, 2, 1, 0x10⟩ ∧
    regsOf (exec (.rxByte 0x7E) inPayloadEsc) = some ⟨.checksum, false, 2, 2, 0x6E⟩ ∧
    regsOf (exec (.escaped 0x7E) inPayloadEsc) = some ⟨.checksum, false, 2, 2, 0x6E⟩ ∧
    regsOf (exec .escIntro inPayload) = some ⟨.payload, true, 2, 1, 0x10⟩ := by decide

/-- R98: a start in `PAYLOAD` raises `DROP_ABORT` and begins a frame. -/
theorem test_start :
    lastRx (exec .start inPayload) = some (.event .dropAbort) ∧
    regsOf (exec .start inPayload) = some ⟨.lenMsb, false, 0, 0, 0⟩ ∧
    lastRx (exec .evDropAbort inPayload) = some (.event .dropAbort) ∧
    lastRx (exec .start s0) = some (.event .none) := by decide

/-- R102, R103, examples. -/
theorem test_length_bytes :
    regsOf (exec (.lenMsb 0x01) inLenMsb) = some ⟨.lenLsb, false, 0x0100, 0, 0⟩ ∧
    regsOf (exec (.lenLsb 0x04) inLenLsb) = some ⟨.payload, false, 4, 0, 0⟩ ∧
    regsOf (exec (.lenLsb 0x00) inLenLsb) = some ⟨.checksum, false, 0, 0, 0⟩ ∧
    lastRx (exec (.evDropOverlen 0x01) smallLenLsb) = some (.event .dropOverlen) ∧
    regsOf (exec (.evDropOverlen 0x01) smallLenLsb) = some ⟨.awaitStart, false, 0x0101, 0, 0⟩ := by decide

/-- R105: the byte is stored at index 1, and a zero is stored by removing the entry. -/
theorem test_payload :
    (nextOf (exec (.payload 0x20) inPayload)).map State.rxBuf = some [(0, 0x10), (1, 0x20)] ∧
    regsOf (exec (.data 0x20) inPayload) = some ⟨.checksum, false, 2, 2, 0x30⟩ ∧
    (nextOf (exec (.payload 0x00) { inPayload with rxCnt := 0 })).map State.rxBuf = some [] := by decide

/-- R107, vector V15 (`90 + 6F = FF`): a match and a mismatch. -/
theorem test_checksum :
    lastRx (exec (.checksum 0x6F) inChecksum) = some (.event (.frame [0x8A, 0x06])) ∧
    lastRx (exec (.evFrame 0x6F) inChecksum) = some (.event (.frame [0x8A, 0x06])) ∧
    lastRx (exec (.checksum 0x6E) inChecksum) = some (.event .dropChecksum) ∧
    lastRx (exec (.evDropChecksum 0x6E) inChecksum) = some (.event .dropChecksum) := by decide

/-- R101, example: `RX.BYTE(0x55)` in `AWAIT_START`. -/
theorem test_awaitStart :
    nextOf (exec (.awaitStart 0x55) s0) = some { s0 with rxRet := [.event .none] } ∧
    nextOf (exec (.evNone 0x55) s0) = some { s0 with rxRet := [.event .none] } := by decide

/-- Log entry 11: a store past the buffer, which no run reaches, stops the machine. -/
theorem test_store_past_the_buffer :
    faultOf (exec (.payload 0) { small with rxState := .payload, rxCnt := 256 }) = some (.rxBufIndex 256) := by decide

/-- R97 item 6, log entry 17: a row of the state table and a row of the events end with no escape pending; with one
pending a start is an escaped byte (95_test_vectors.md P3). -/
theorem test_rows_clear_the_escape :
    regsOf (exec (.payload 0x20) inPayloadEsc) = some ⟨.checksum, false, 2, 2, 0x30⟩ ∧
    regsOf (exec (.evFrame 0x6F) { inChecksum with rxEsc := true }) = some ⟨.awaitStart, false, 2, 2, 0x90⟩ ∧
    regsOf (exec .evDropAbort inPayloadEsc) = some ⟨.checksum, false, 2, 2, 0x6E⟩ := by decide

/-! ## FID and control -/

/-- 42_frame_id.md R125: 254 is followed by 1. -/
theorem test_fidAlloc :
    (nextOf (exec .fidAlloc { s0 with fidCtr := 254 })).map (fun t => (t.fidRet, t.fidCtr)) = some ([254], 1) ∧
    (nextOf (exec .fidAlloc s0)).map (fun t => (t.fidRet, t.fidCtr)) = some ([1], 2) := by decide

/-- 95_test_vectors.md section 2.10. -/
theorem test_rxFlush :
    nextOf (exec .rxFlush { inPayloadEsc with fidCtr := 77 }) =
      some { inPayloadEsc with
        rxState := .awaitStart, rxEsc := false, rxLen := 0, rxCnt := 0, rxSum := 0, fidCtr := 77 } := by decide

/-- 95_test_vectors.md section 2.10; the refusal before the first `RESET` is R170. -/
theorem test_reset :
    (nextOf (exec (.reset { escEn := false, fidSeed := 9 }) { inPayloadEsc with fidCtr := 77 })).map
      (fun t => (t.rxState, t.rxEsc, t.rxCnt, t.fidCtr, t.cfg.escEn)) = some (.awaitStart, false, 0, 9, false) ∧
    refusalOf (exec .fidAlloc unstarted) = some .notReset := by decide

/-! ## Witnesses: concrete inputs that meet the hypotheses of each statement -/

theorem test_live_s0 : Live s0 :=
  ⟨rfl, by decide, by decide, by decide, by decide, by decide, by decide, by decide, by decide, by decide⟩

theorem test_live_mode1 : Live mode1 :=
  ⟨rfl, by decide, by decide, by decide, by decide, by decide, by decide, by decide, by decide, by decide⟩

theorem test_live_inPayload : Live inPayload :=
  ⟨rfl, by decide, by decide, by decide, by decide, by decide, by decide, by decide, by decide, by decide⟩

theorem test_live_inPayloadEsc : Live inPayloadEsc :=
  ⟨rfl, by decide, by decide, by decide, by decide, by decide, by decide, by decide, by decide, by decide⟩

theorem test_live_inChecksum : Live inChecksum :=
  ⟨rfl, by decide, by decide, by decide, by decide, by decide, by decide, by decide, by decide, by decide⟩

theorem test_live_smallLenLsb : Live smallLenLsb :=
  ⟨rfl, by decide, by decide, by decide, by decide, by decide, by decide, by decide, by decide, by decide⟩

theorem test_witness_DecodeReadsBackEncode :
    Instr.escXon.wellFormed = true ∧ Instr.escXon.selected Config.default false = true := by decide

theorem test_witness_EveryRequestHasOneMeaning :
    decode Config.default true (.bits .rxByte [0x7E]) = .ok (.escaped 0x7E) := rfl

/-- One configuration and flag for each row. -/
theorem test_witness_ByteClassTableDecoded :
    s0.cfg.escEn = true ∧ inPayloadEsc.rxEsc = true ∧ s0.rxEsc = false ∧ mode1.cfg.escEn = false ∧
    ¬ (s0.cfg.escEn = true ∧ (0x55 : Byte) = 0x7D) ∧ ¬ (mode1.cfg.escEn = true ∧ (0x7D : Byte) = 0x7D) := by decide

/-- A request that decodes and one that does not. -/
theorem test_witness_StepRunsTheDecodedInstruction :
    decode s0.cfg s0.rxEsc (.host .fidAlloc) = .ok .fidAlloc ∧
    decode s0.cfg s0.rxEsc (.bits .rxState [5, 0]) = .error .reservedStateCode ∧
    ({ s0 with pending := [.host .fidAlloc] } : State).pending = .host .fidAlloc :: [] ∧
    ({ s0 with pending := [.bits .rxState [5, 0]] } : State).pending = .bits .rxState [5, 0] :: [] :=
  ⟨rfl, rfl, rfl, rfl⟩

/-- Both ends of both ranges of R6, and the first value outside each. -/
theorem test_witness_ResetInstallsConfiguration :
    (1 ≤ 1 ∧ 1 ≤ 65535 ∧ 1 ≤ 254 ∧ 254 ≤ 254) ∧ (1 ≤ 65535 ∧ 65535 ≤ 65535 ∧ 1 ≤ 1 ∧ 1 ≤ 254) ∧
    ¬ (1 ≤ 0 ∧ 0 ≤ 65535 ∧ 1 ≤ 1 ∧ 1 ≤ 254) ∧ ¬ (1 ≤ 65536 ∧ 65536 ≤ 65535 ∧ 1 ≤ 1 ∧ 1 ≤ 254) ∧
    ¬ (1 ≤ 1 ∧ 1 ≤ 65535 ∧ 1 ≤ 0 ∧ 0 ≤ 254) ∧ ¬ (1 ≤ 1 ∧ 1 ≤ 65535 ∧ 1 ≤ 255 ∧ 255 ≤ 254) := by decide

/-- For FlushIdlesTheAssembler, ChecksumReturned, HeaderReturned, EscapedByteReturned and
ChunkIsTheByteLoop's first clause. -/
theorem test_witness_started : s0.started = true ∧ inPayload.started = true := by decide

/-- Both ends of the counter's range. -/
theorem test_witness_FrameIdHandedOut :
    let b : State := { s0 with fidCtr := 254 }
    (s0.started = true ∧ 1 ≤ s0.fidCtr.toNat ∧ s0.fidCtr.toNat ≤ 254) ∧
    b.started = true ∧ 1 ≤ b.fidCtr.toNat ∧ b.fidCtr.toNat ≤ 254 := by decide

theorem test_witness_NothingRunsBeforeReset :
    unstarted.started = false ∧ ∀ cfg, Instr.fidAlloc ≠ .reset cfg := ⟨rfl, by simp⟩

theorem test_witness_OnlyResetChangesConfiguration :
    (∃ t, exec (.rxByte 0x7E) inPayload = .next t) ∧ ∀ cfg, Instr.rxByte 0x7E ≠ .reset cfg := ⟨⟨_, rfl⟩, by simp⟩

/-- Both modes. -/
theorem test_witness_ReservedBodyBytesSentAsPairs :
    (s0.started = true ∧ s0.cfg.escEn = true) ∧ mode1.started = true ∧ mode1.cfg.escEn = false := by decide

/-- A byte outside `RSV`, and a byte of `RSV` in mode 1. -/
theorem test_witness_LiteralSentAsItIs :
    (s0.started = true ∧ (0x5E : Byte) ≠ 0x7E ∧ (0x5E : Byte) ≠ 0x7D ∧ (0x5E : Byte) ≠ s0.cfg.xonByte ∧
      (0x5E : Byte) ≠ s0.cfg.xoffByte) ∧ mode1.started = true ∧ mode1.cfg.escEn = false := by decide

/-- For RawFrameReturned and SendEmitsOneFrame: no payload, and one of exactly `MAX_LEN` bytes. -/
theorem test_witness_payload_accepted :
    s0.started = true ∧ ([] : List Byte).length ≤ s0.cfg.maxLen ∧
    (List.replicate 256 (0 : Byte)).length ≤ small.cfg.maxLen := ⟨rfl, by decide, by rw [List.length_replicate]; decide⟩

/-- One byte more than `MAX_LEN`. -/
theorem test_witness_LongPayloadRefused :
    small.started = true ∧ small.cfg.maxLen < (List.replicate 257 (0 : Byte)).length := ⟨rfl, by rw [List.length_replicate]; decide⟩

theorem test_witness_WireFrameIsDelimited :
    Config.default.escEn = true ∧ Config.default.xonByte = 0x11 ∧ Config.default.xoffByte = 0x13 := by decide

theorem test_witness_WireFramesArePrefixFree :
    ([0x81] : List Byte).length ≤ 65535 ∧ wireFrame Config.default [0x81] <+: wireFrame Config.default [0x81] :=
  ⟨by simp, List.prefix_refl _⟩

theorem test_witness_OneByteChangeChangesChecksum : (0x4E : Byte) ≠ 0x4F := by decide

theorem test_witness_TxIsAFunctionOfItsOperand :
    (Instr.txSend [0x81]).unit = .tx ∧ s0.started = true ∧ s0.cfg = Config.default := by decide

theorem test_witness_EscapeIntroducerConsumed :
    inPayload.started = true ∧ inPayload.cfg.escEn = true ∧ inPayload.rxEsc = false := by decide

theorem test_witness_EscapedByteIsData : inPayloadEsc.cfg.escEn = true ∧ inPayloadEsc.rxEsc = true := by decide

theorem test_witness_DataByteIsInterpreted : DataClass inPayload 0x20 ∧ DataClass mode1 0x7D :=
  ⟨⟨by decide, by decide, by decide⟩, by decide, by decide, by decide⟩

/-- In mode 2 with no escape pending, and in mode 1. -/
theorem test_witness_StartBeginsAFrame :
    (inPayload.started = true ∧ inPayload.rxEsc = false) ∧ mode1.started = true ∧ mode1.cfg.escEn = false := by decide

theorem test_witness_AwaitStartDiscards :
    s0.started = true ∧ s0.rxState = .awaitStart ∧ s0.rxEsc = false ∧ DataClass s0 0x55 :=
  ⟨rfl, rfl, rfl, by decide, by decide, by decide⟩

theorem test_witness_LengthHighByteTaken :
    inLenMsb.started = true ∧ inLenMsb.rxState = .lenMsb ∧ inLenMsb.rxEsc = false := by decide

/-- `ESC_EN = 1`, with an escape pending. -/
theorem test_witness_RowsActAsTheByteTheyPresent : inPayloadEsc.cfg.escEn = true ∧ inPayloadEsc.rxEsc = true := by decide

/-- `MAX_LEN = 256`: 257 is above it, 256 is not; and a length of 0. -/
theorem test_witness_LengthLowByteDecides :
    smallLenLsb.started = true ∧ smallLenLsb.rxState = .lenLsb ∧ smallLenLsb.rxEsc = false ∧
    ((257 : Half).toNat = smallLenLsb.rxLen.toNat / 256 * 256 + (0x01 : Byte).toNat ∧
      smallLenLsb.cfg.maxLen < (257 : Half).toNat) ∧
    ((256 : Half).toNat = smallLenLsb.rxLen.toNat / 256 * 256 + (0x00 : Byte).toNat ∧
      (256 : Half).toNat ≤ smallLenLsb.cfg.maxLen) ∧
    inLenLsb.started = true ∧ inLenLsb.rxState = .lenLsb ∧ inLenLsb.rxEsc = false ∧
      (0 : Half).toNat ≤ inLenLsb.cfg.maxLen ∧
      (0 : Half).toNat = inLenLsb.rxLen.toNat / 256 * 256 + (0x00 : Byte).toNat := by decide

/-- The last index of the buffer, and the first past it. -/
theorem test_witness_PayloadByteStored :
    let a : State := { small with rxState := .payload, rxCnt := 255 }
    let b : State := { small with rxState := .payload, rxCnt := 256 }
    (a.started = true ∧ a.rxState = .payload ∧ a.rxBuf.wf ∧ a.rxEsc = false ∧ a.rxCnt.toNat < a.cfg.maxLen) ∧
    b.started = true ∧ b.rxState = .payload ∧ b.rxBuf.wf ∧ b.rxEsc = false ∧ b.cfg.maxLen ≤ b.rxCnt.toNat := by decide

/-- A match with `rx_len = MAX_LEN`, a match with a longer `rx_len`, and a mismatch. -/
theorem test_witness_ChecksumByteDecides :
    let a : State := { small with rxState := .checksum, rxLen := 256 }
    let b : State := { small with rxState := .checksum, rxLen := 257 }
    (a.started = true ∧ a.rxState = .checksum ∧ a.rxEsc = false ∧ (a.rxSum.toNat + (0xFF : Byte).toNat) % 256 = 255 ∧
      a.rxLen.toNat ≤ a.cfg.maxLen) ∧
    (b.started = true ∧ b.rxState = .checksum ∧ b.rxEsc = false ∧ (b.rxSum.toNat + (0xFF : Byte).toNat) % 256 = 255 ∧
      b.cfg.maxLen < b.rxLen.toNat) ∧
    (a.rxSum.toNat + (0xFE : Byte).toNat) % 256 ≠ 255 := by decide

theorem test_witness_EveryByteIsHandled : (Instr.escaped 0x5E).rxOneByte ∧ Live inPayloadEsc :=
  ⟨⟨rfl, by simp⟩, test_live_inPayloadEsc⟩

/-- Each of the four events. -/
theorem test_witness_StateAfterEachEvent :
    (Live inChecksum ∧ ∃ t, exec (.rxByte 0x6F) inChecksum = .next t ∧
      t.rxRet = inChecksum.rxRet ++ [.event (.frame [0x8A, 0x06])]) ∧
    (∃ t, exec (.rxByte 0x6E) inChecksum = .next t ∧ t.rxRet = inChecksum.rxRet ++ [.event .dropChecksum]) ∧
    (Live smallLenLsb ∧ ∃ t, exec (.rxByte 0x01) smallLenLsb = .next t ∧
      t.rxRet = smallLenLsb.rxRet ++ [.event .dropOverlen]) ∧
    (Live inPayload ∧ ∃ t, exec (.rxByte 0x7E) inPayload = .next t ∧
      t.rxRet = inPayload.rxRet ++ [.event .dropAbort]) :=
  ⟨⟨test_live_inChecksum, _, rfl, rfl⟩, ⟨_, rfl, rfl⟩, ⟨test_live_smallLenLsb, _, rfl, rfl⟩,
    test_live_inPayload, _, rfl, rfl⟩

theorem test_witness_EscapePendingExactlyAfterIntroducer :
    Live inPayload ∧ (∃ t, exec (.rxByte 0x7D) inPayload = .next t ∧ t.rxEsc = true) ∧
    ∃ t, exec (.rxByte 0x20) inPayload = .next t ∧ t.rxEsc = false :=
  ⟨test_live_inPayload, ⟨_, rfl, rfl⟩, _, rfl, rfl⟩

theorem test_witness_DeliveredPayloadIsVerified :
    Live inChecksum ∧ (∃ t, exec (.rxByte 0x6F) inChecksum = .next t ∧
      t.rxRet = inChecksum.rxRet ++ [.event (.frame [0x8A, 0x06])]) ∧
    (0x6F : Byte) = (if inChecksum.cfg.escEn = true ∧ inChecksum.rxEsc = true then 0x6F ^^^ 0x20 else 0x6F) :=
  ⟨test_live_inChecksum, ⟨_, rfl, rfl⟩, by decide⟩

/-- Into `LEN_MSB`, and into `AWAIT_START` from each of the two states. -/
theorem test_witness_WaysIntoLenMsbAndAwaitStart :
    (inPayload.rxState ≠ .lenMsb ∧ ∃ t, exec (.rxByte 0x7E) inPayload = .next t ∧ t.rxState = .lenMsb) ∧
    (inChecksum.rxState ≠ .awaitStart ∧ ∃ t, exec (.rxByte 0x6F) inChecksum = .next t ∧ t.rxState = .awaitStart) ∧
    smallLenLsb.rxState ≠ .awaitStart ∧ ∃ t, exec (.rxByte 0x01) smallLenLsb = .next t ∧ t.rxState = .awaitStart :=
  ⟨⟨by decide, _, rfl, rfl⟩, ⟨by decide, _, rfl, rfl⟩, by decide, _, rfl, rfl⟩

/-- The largest length, received by one byte and by a chunk, and a payload sent. -/
theorem test_witness_NoLengthEventAtTheLargestMaxLen :
    let s : State := { inLenLsb with rxLen := 0xFF00 }
    (s.cfg.maxLen = 65535 ∧ (Instr.lenLsb 0xFF).rxOneByte ∧ ∃ t, exec (.lenLsb 0xFF) s = .next t) ∧
    (∃ t, exec (.rxChunk [0xFF]) s = .next t ∧ t.rxRet = s.rxRet ++ [.chunk []]) ∧
    (s0.cfg.maxLen = 65535 ∧ (Instr.txSend [0x81]).unit = .tx ∧ ([0x81] : List Byte).length ≤ 65535 ∧
      ∃ t, exec (.txSend [0x81]) s0 = .next t) :=
  ⟨⟨rfl, ⟨rfl, by simp⟩, _, rfl⟩, ⟨_, rfl, rfl⟩, rfl, rfl, by decide, _, rfl⟩

theorem test_witness_ChunkIsTheByteLoop :
    ∃ t u, exec (.rxByte 0x6F) inChecksum = .next t ∧
      t.rxRet = inChecksum.rxRet ++ [.event (.frame [0x8A, 0x06])] ∧
      exec (.rxChunk [0x7E, 0x7E]) t = .next u ∧ u.rxRet = t.rxRet ++ [.chunk [.dropAbort]] :=
  ⟨_, _, rfl, rfl, rfl, rfl⟩

/-- For EveryChunkIsHandled, NoStepOfARunFaults and EveryStepKeepsTheInvariants. -/
theorem test_witness_live_and_step :
    Live inPayload ∧ ∃ t, step { inPayload with pending := [.host (.rxByte 0x20)] } = .next t :=
  ⟨test_live_inPayload, _, rfl⟩

/-- 95_test_vectors.md section 2.6: the first two chunks of vector V3. -/
theorem test_witness_FragmentationMakesNoDifference :
    ∃ t, exec (.rxChunk ([0x7E] ++ [0x00, 0x04, 0x7D])) s0 = .next t := ⟨_, rfl⟩

/-- In mode 2 with a frame in progress, and in mode 1. -/
theorem test_witness_SentFrameIsReceived :
    (Live inPayload ∧ inPayload.rxEsc = false ∧ s0.started = true ∧ s0.cfg = inPayload.cfg ∧
      ([0x7E] : List Byte).length ≤ inPayload.cfg.maxLen ∧ inPayload.cfg.escEn = true) ∧
    (∃ y w, exec (.txSend [0x7E]) s0 = .next y ∧ y.txStream = s0.txStream ++ w) ∧
    (Live mode1 ∧ mode1.rxEsc = false ∧ startByte ∉ rawBody [0x7D]) ∧
    ∃ y w, exec (.txSend [0x7D]) mode1 = .next y ∧ y.txStream = mode1.txStream ++ w :=
  ⟨⟨test_live_inPayload, rfl, rfl, rfl, by decide, rfl⟩, ⟨_, _, rfl, rfl⟩, ⟨test_live_mode1, rfl, by decide⟩,
    _, _, rfl, rfl⟩

theorem test_witness_FrameArrivesOnItsLastByte :
    Live s0 ∧ s0.rxEsc = false ∧ s0.rxState = .awaitStart ∧ ([0x81] : List Byte).length ≤ s0.cfg.maxLen ∧
    s0.cfg.escEn = true := ⟨test_live_s0, rfl, rfl, by decide, rfl⟩

/-- A prefix that leaves no escape pending, and one that ends in a dangling `ESCAPE`. -/
theorem test_witness_AssemblerResynchronises :
    Live s0 ∧ (∃ t, exec (.rxChunk [0x7E, 0x00, 0x05, 0x10]) s0 = .next t ∧ t.rxEsc = false) ∧
    (∃ t, exec (.rxChunk [0x7E, 0x00, 0x01, 0x10, 0x7D]) s0 = .next t ∧ t.rxEsc = true) ∧
    ([0x8A, 0x06] : List Byte).length ≤ s0.cfg.maxLen ∧ s0.cfg.escEn = true :=
  ⟨test_live_s0, ⟨_, rfl, rfl⟩, ⟨_, rfl, rfl⟩, by decide, rfl⟩

/-- The payload of V1 with `4E` changed to `4F`, and the same in mode 1. -/
theorem test_witness_OneByteChangeIsRejected :
    (Live s0 ∧ s0.rxEsc = false ∧ s0.rxState = .awaitStart ∧ (0x4E : Byte) ≠ 0x4F ∧
      ([0x08, 0x01] ++ 0x4F :: [0x44] : List Byte).length ≤ s0.cfg.maxLen ∧ s0.cfg.escEn = true) ∧
    Live mode1 ∧ startByte ∉ header (BitVec.ofNat 16 ([0x08, 0x01] ++ 0x4F :: [0x44] : List Byte).length) ++
      ([0x08, 0x01] ++ 0x4F :: [0x44]) ++ [cksum ([0x08, 0x01] ++ 0x4E :: [0x44])] :=
  ⟨⟨test_live_s0, rfl, rfl, by decide, by decide, rfl⟩, test_live_mode1, by decide⟩

theorem test_witness_FramesFollowOneAnother :
    Live mode1 ∧ mode1.rxEsc = false ∧ mode1.rxState = .awaitStart ∧ ([0x81] : List Byte).length ≤ s0.cfg.maxLen ∧
    s0.cfg.escEn = true ∧ startByte ∉ rawBody [0x7D] ∧ startByte ∉ rawBody [] ∧
    ∀ b ∈ ([0x00, 0x55] : List Byte), b ≠ 0x7E ∧ b ≠ 0x7D :=
  ⟨test_live_mode1, rfl, rfl, by decide, rfl, by decide, by decide, by decide⟩

theorem test_witness_NothingBeforeAStartMatters :
    Live s0 ∧ Live inChecksum ∧ s0.cfg = inChecksum.cfg ∧ s0.rxEsc = false ∧ inChecksum.rxEsc = false ∧
    (∃ a, exec (.rxByte 0x7E) s0 = .next a) ∧ ∃ a, exec (.rxByte 0x7E) inChecksum = .next a :=
  ⟨test_live_s0, test_live_inChecksum, rfl, rfl, rfl, ⟨_, rfl⟩, _, rfl⟩

/-- For ReceiverIgnoresXonAndXoff and ReceiverChangesOnlyItsOwn. -/
theorem test_witness_receiver :
    (Instr.rxByte 0x11).unit = .rx ∧ ∃ t, exec (.rxByte 0x11) inPayload = .next t := ⟨rfl, _, rfl⟩

/-- Both ends of the range of `FID_SEED`. -/
theorem test_witness_FrameIdsCycle :
    (∃ t, exec (.reset { fidSeed := 1 }) s0 = .next t) ∧ ∃ t, exec (.reset { fidSeed := 254 }) s0 = .next t :=
  ⟨⟨_, rfl⟩, _, rfl⟩

theorem test_witness_OnlyAllocAndResetChangeTheCounter :
    (∃ t, exec .rxFlush inPayload = .next t) ∧ Instr.rxFlush ≠ .fidAlloc ∧ ∀ cfg, Instr.rxFlush ≠ .reset cfg :=
  ⟨⟨_, rfl⟩, by simp, by simp⟩

/-- An instruction of RX that writes the buffer, and one of another unit. -/
theorem test_witness_BufferWrittenOnlyAtTheCount :
    ((Instr.payload 0x20).rxOneByte ∧ ∃ t, exec (.payload 0x20) inPayload = .next t ∧
      t.rxBuf.read 1 ≠ inPayload.rxBuf.read 1) ∧
    Instr.rxFlush.unit ≠ .rx ∧ ∃ t, exec .rxFlush inPayload = .next t :=
  ⟨⟨⟨rfl, by simp⟩, _, rfl, by decide⟩, by decide, _, rfl⟩

theorem test_witness_UnitsCommute :
    (Instr.txSend [0x81]).unit ≠ .control ∧ (Instr.rxByte 0x7E).unit ≠ .control ∧
    (Instr.txSend [0x81]).unit ≠ (Instr.rxByte 0x7E).unit ∧
    (∃ a, exec (.txSend [0x81]) inPayload = .next a) ∧ ∃ b, exec (.rxByte 0x7E) inPayload = .next b :=
  ⟨by decide, by decide, by decide, ⟨_, rfl⟩, _, rfl⟩

end Sys2Proof.Tests
end

section
/-! What one step does, by what the host has pending (00_scope.md R8, 60_exceptions.md R162): one equation for each of
the three cases of `step`. -/

namespace Sys2Proof.Machine

theorem step_of_pending_nil {s : State} (hp : s.pending = []) : step s = .next s := by
  simp only [step, hp]

theorem step_of_decode_ok {s : State} {r : Request} {rest : List Request} {i : Instr} (hp : s.pending = r :: rest)
    (hd : decode s.cfg s.rxEsc r = .ok i) : step s = exec i { s with pending := rest } := by
  simp only [step, hp, hd]

theorem step_of_decode_error {s : State} {r : Request} {rest : List Request} {e : DecodeError}
    (hp : s.pending = r :: rest) (hd : decode s.cfg s.rxEsc r = .error e) : step s = .refused (.badRequest e) := by
  simp only [step, hp, hd]

/-- Settles O5: its three clauses are the three equations of `step`. -/
theorem stepRunsTheDecodedInstruction : Obligations.StepRunsTheDecodedInstruction := by
  intro s r rest hp
  exact ⟨fun _ hd => step_of_decode_ok hp hd, fun _ hd => step_of_decode_error hp hd, step_of_pending_nil rfl⟩

end Sys2Proof.Machine
end

section
/-! What one instruction can do, by its unit (00_scope.md R8, R9): the equation of every instruction of TX, when an
instruction of RX answers a next state, and from these the cases of `exec` and of `step`. -/

namespace Sys2Proof.Machine

/-- What an instruction of TX returns, and the bytes it emits (40_tx_encoder.md R80 to R87). -/
def txResult (cfg : Config) : Instr → TxReturn × List Byte
  | .rawFrame p => (if tooLong cfg p then .event (.txRefused p.length) else .bytes (rawFrameBytes p), [])
  | .escStart => (.bytes (if cfg.escEn then escapePair startByte else [startByte]), [])
  | .escEscape => (.bytes (if cfg.escEn then escapePair escapeByte else [escapeByte]), [])
  | .escXon => (.bytes (if cfg.escEn then escapePair cfg.xonByte else [cfg.xonByte]), [])
  | .escXoff => (.bytes (if cfg.escEn then escapePair cfg.xoffByte else [cfg.xoffByte]), [])
  | .literal lead b => (.bytes (if lead || !mustEscape cfg b then [b] else escapePair b), [])
  | .txCksum p => (.byte (cksum p), [])
  | .txHeader n => (.bytes (header n), [])
  | .txEsc b => (.bytes (txEscBytes cfg b), [])
  | .txSend p | .evTxRefused p =>
    if tooLong cfg p then (.event (.txRefused p.length), []) else (.event .none, wireFrame cfg p)
  | _ => (.bytes [], [])

/-- The state after TX returns `r` and emits `w`. -/
def txAnswer (r : TxReturn) (w : List Byte) (s : State) : State :=
  { s with txRet := s.txRet ++ [r], txStream := s.txStream ++ w }

theorem txReturn_eq_txAnswer (r : TxReturn) (s : State) : txReturn r s = txAnswer r [] s := by
  simp [txReturn, txAnswer]

theorem refuseSend_eq_txAnswer (p : List Byte) (s : State) :
    refuseSend p s = txAnswer (.event (.txRefused p.length)) [] s :=
  txReturn_eq_txAnswer _ s

theorem sendFrame_eq_txAnswer (p : List Byte) (s : State) :
    sendFrame p s = txAnswer (txResult s.cfg (.txSend p)).1 (txResult s.cfg (.txSend p)).2 s := by
  simp only [sendFrame, txResult]
  split
  · exact refuseSend_eq_txAnswer p s
  · rfl

/-- Every instruction of TX returns and emits its `txResult`, and does nothing else (10_state.md R23). -/
theorem exec_tx (i : Instr) (s : State) (hu : i.unit = .tx) :
    exec i s = afterReset s (.next (txAnswer (txResult s.cfg i).1 (txResult s.cfg i).2 s)) := by
  cases i <;> simp only [Instr.unit, reduceCtorEq] at hu
  case rawFrame p =>
    simp only [exec, execRawFrame, txResult, refuseSend_eq_txAnswer, txReturn_eq_txAnswer]
    split <;> rfl
  case evTxRefused p =>
    simp only [exec, execEvTxRefused, sendFrame_eq_txAnswer, refuseSend_eq_txAnswer, txResult]
    split <;> rfl
  case txSend p => rw [exec, execTxSend, sendFrame_eq_txAnswer]
  all_goals exact congrArg (fun u => afterReset s (.next u)) (txReturn_eq_txAnswer _ s)

/-- An instruction of RX takes one byte, or is `RX.CHUNK`. -/
theorem rxOneByte_or_rxChunk {i : Instr} (hu : i.unit = .rx) : i.rxOneByte ∨ ∃ bs, i = .rxChunk bs := by
  by_cases hc : ∃ bs, i = .rxChunk bs
  · exact .inr hc
  · exact .inl ⟨hu, fun bs he => hc ⟨bs, he⟩⟩

/-- An instruction of RX that takes one byte presents a wire byte, or a logical byte with no escape pending. -/
theorem rxCore_cases {i : Instr} (h : i.rxOneByte) :
    (∃ b, ∀ s, rxCore i s = receiveByte b s) ∨ ∃ v, ∀ s, rxCore i s = interpret v (afterUnescape s) := by
  obtain ⟨hu, hc⟩ := h
  cases i <;> simp only [Instr.unit, reduceCtorEq] at hu
  case rxChunk bs => exact absurd rfl (hc bs)
  case awaitStart v | lenMsb v | lenLsb v | payload v | checksum v | evFrame v | evDropChecksum v | evDropOverlen v =>
    exact .inr ⟨v, fun _ => rfl⟩
  all_goals exact .inl ⟨_, fun _ => rfl⟩

/-- RX has taken its input in `s` and is in `u`, the value to return not yet recorded. -/
def RxRuns (s u : State) : Prop :=
  (∃ b e, receiveByte b s = .ok (e, u)) ∨ (∃ v e, interpret v (afterUnescape s) = .ok (e, u)) ∨
    ∃ bs es, receiveBytes bs s = .ok (es, u)

theorem exec_rx_next {i : Instr} {s t : State} (hu : i.unit = .rx) (h : exec i s = .next t) :
    ∃ r u, RxRuns s u ∧ t = rxReturn r u := by
  rcases rxOneByte_or_rxChunk hu with hi | ⟨bs, rfl⟩
  · rw [exec_rxOneByte i s hi, afterReset_next, rxEvent_next] at h
    obtain ⟨-, e, u, hr, rfl⟩ := h
    rcases rxCore_cases hi with ⟨b, hb⟩ | ⟨v, hv⟩
    · exact ⟨_, u, .inl ⟨b, e, by rw [← hb, hr]⟩, rfl⟩
    · exact ⟨_, u, .inr (.inl ⟨v, e, by rw [← hv, hr]⟩), rfl⟩
  · obtain ⟨es, u, hr, rfl⟩ := rxEvents_next.mp (afterReset_next.mp h).2
    exact ⟨_, u, .inr (.inr ⟨bs, es, hr⟩), rfl⟩

/-- The next state of every instruction, unit by unit; `exec_rx_next` says what an instruction of RX does. -/
theorem exec_cases {i : Instr} {s t : State} (h : exec i s = .next t) :
    (∃ r w, t = txAnswer r w s) ∨
    i.unit = .rx ∨
    (i = .fidAlloc ∧ t = { s with fidCtr := nextFid s.fidCtr, fidRet := s.fidRet ++ [s.fidCtr] }) ∨
    (∃ cfg, i = .reset cfg ∧ cfg.valid = true ∧
      t = { idleRx s with started := true, cfg := cfg, fidCtr := BitVec.ofNat 8 cfg.fidSeed }) ∨
    (i = .rxFlush ∧ t = idleRx s) := by
  cases hu : i.unit
  case tx =>
    rw [exec_tx i s hu, afterReset_next] at h
    obtain ⟨-, h⟩ := h
    injection h with h
    exact .inl ⟨_, _, h.symm⟩
  case rx => exact .inr (.inl rfl)
  case fid =>
    cases i <;> simp only [Instr.unit, reduceCtorEq] at hu
    obtain ⟨-, h⟩ := afterReset_next.mp h
    injection h with h
    simp [h.symm]
  case control =>
    cases i <;> simp only [Instr.unit, reduceCtorEq] at hu
    case reset cfg =>
      simp only [exec, execReset] at h
      split at h
      · next hv =>
        injection h with h
        simp [hv, h.symm]
      · cases h
    case rxFlush =>
      obtain ⟨-, h⟩ := afterReset_next.mp h
      injection h with h
      simp [h.symm]

/-- A step that answers a next state idles or executes the decoded request. -/
theorem step_next {s t : State} (h : step s = .next t) :
    (s.pending = [] ∧ t = s) ∨
    ∃ r rest i, s.pending = r :: rest ∧ decode s.cfg s.rxEsc r = .ok i ∧
      exec i { s with pending := rest } = .next t := by
  cases hp : s.pending with
  | nil =>
    rw [step_of_pending_nil hp] at h
    injection h with h
    exact .inl ⟨rfl, h.symm⟩
  | cons r rest =>
    cases hd : decode s.cfg s.rxEsc r with
    | error e => simp [step_of_decode_error hp hd] at h
    | ok i => exact .inr ⟨r, rest, i, rfl, hd, by rw [← step_of_decode_ok hp hd, h]⟩

/-- The loop of `RX.CHUNK` completes when its first byte and the rest of the chunk do. -/
theorem receiveBytes_cons_ok {b : Byte} {bs : List Byte} {s u : State} {es : List Event} :
    receiveBytes (b :: bs) s = .ok (es, u) ↔
      ∃ e t fs, receiveByte b s = .ok (e, t) ∧ receiveBytes bs t = .ok (fs, u) ∧ es = reportIn e fs := by
  rw [receiveBytes]
  rcases receiveByte b s with f | ⟨e, t⟩
  · simp
  · dsimp only
    rcases hr : receiveBytes bs t with f | ⟨fs, w⟩
    · simp [hr]
    · simp [hr, eq_comm, and_comm]

end Sys2Proof.Machine
end

section
/-! The invariants of 10_state.md R30, operation by operation, and the statements about them. -/

namespace Sys2Proof.Machine

/-- The invariants read the configuration, the counter, the RX registers and the buffer alone. -/
theorem invariants_of_sameRx {s t : State} (hi : Invariants s) (hcfg : t.cfg = s.cfg) (hfid : t.fidCtr = s.fidCtr)
    (hrx : SameRx s t) : Invariants t := by
  obtain ⟨hstate, hesc, hlen, hcnt, hsum, hbuf⟩ := hrx
  obtain ⟨i1, i2, i3, i4, i5, i6, i7, i8, i9⟩ := hi
  constructor <;> simp only [hcfg, hfid, hstate, hesc, hlen, hcnt, hsum, hbuf] <;> assumption

/-- In `AWAIT_START` the invariants leave the length, the count and the sum free. -/
theorem invariants_of_awaitStart {s : State} (hq : s.rxState = .awaitStart) (hcfg : s.cfg.valid = true)
    (hesc : s.cfg.escEn = false → s.rxEsc = false) (hfid : 1 ≤ s.fidCtr.toNat ∧ s.fidCtr.toNat ≤ 254)
    (hbuf : s.rxBuf.wf) : Invariants s where
  cfgValid := hcfg
  escOff := hesc
  lenMsb := by simp [hq]
  lenLsb := by simp [hq]
  payload := by simp [hq]
  checksum := by simp [hq]
  sum := by simp [hq]
  fid := hfid
  bufWf := hbuf

theorem invariants_rxEsc {s : State} (hi : Invariants s) {e : Bool} (he : s.cfg.escEn = false → e = false) :
    Invariants { s with rxEsc := e } :=
  ⟨hi.cfgValid, he, hi.lenMsb, hi.lenLsb, hi.payload, hi.checksum, hi.sum, hi.fid, hi.bufWf⟩

theorem invariants_afterUnescape {s : State} (hi : Invariants s) : Invariants (afterUnescape s) := by
  unfold afterUnescape
  split
  · exact invariants_rxEsc hi (fun _ => rfl)
  · exact hi

theorem invariants_startFrame {s : State} (hi : Invariants s) : Invariants (startFrame s) where
  cfgValid := hi.cfgValid
  escOff := hi.escOff
  lenMsb _ := ⟨rfl, rfl, rfl⟩
  lenLsb := by simp
  payload := by simp
  checksum := by simp
  sum := by simp
  fid := hi.fid
  bufWf := hi.bufWf

/-- A frame that ends, delivered or dropped, leaves RX in `AWAIT_START`, whatever the length is (R103, R107). -/
theorem invariants_endFrame {s : State} (hi : Invariants s) (n : Half) :
    Invariants { s with rxLen := n, rxState := .awaitStart } :=
  invariants_of_awaitStart rfl hi.cfgValid hi.escOff hi.fid hi.bufWf

/-- The high byte of the length (R102). -/
theorem invariants_lenMsb {s : State} (hi : Invariants s) (hq : s.rxState = .lenMsb) (v : Byte) :
    Invariants { s with rxLen := joinBytes v 0, rxState := .lenLsb } where
  cfgValid := hi.cfgValid
  escOff := hi.escOff
  lenMsb := by simp
  lenLsb _ := ⟨loByte_joinBytes v 0, (hi.lenMsb hq).2⟩
  payload := by simp
  checksum := by simp
  sum := by simp
  fid := hi.fid
  bufWf := hi.bufWf

/-- A length `n` that `MAX_LEN` allows: nothing is stored or summed yet, and an empty payload is complete (R103). -/
theorem invariants_lenLsb {s : State} (hi : Invariants s) (hq : s.rxState = .lenLsb) {n : Half}
    (hn : overlen s.cfg n = false) :
    Invariants { s with rxLen := n, rxState := if n = 0 then .checksum else .payload } := by
  obtain ⟨-, hcnt, hsum⟩ := hi.lenLsb hq
  have hmax : n.toNat ≤ s.cfg.maxLen := by simpa [overlen] using hn
  constructor
  case cfgValid => exact hi.cfgValid
  case escOff => exact hi.escOff
  case fid => exact hi.fid
  case bufWf => exact hi.bufWf
  case sum => exact fun _ => by simp [hcnt, hsum, sumBytes]
  case lenMsb | lenLsb => dsimp only; split <;> simp
  case payload =>
    dsimp only
    split
    · simp
    · next hne =>
      have hpos : 0 < n.toNat := by bv_omega
      exact fun _ => ⟨hpos, hmax, by rw [hcnt]; exact hpos⟩
  case checksum =>
    dsimp only
    split
    · next he => exact fun _ => ⟨hmax, hcnt.trans he.symm⟩
    · simp

/-- Storing a byte at the count and summing it keep the sum that of the bytes stored (R105, item 7). -/
theorem sumBytes_take_write {m : Memory} (hw : m.wf) (a : Nat) (v : Byte) :
    sumBytes ((m.write a v).take (a + 1)) = sumBytes (m.take a) + v.toNat := by
  have hbelow : (m.write a v).take a = m.take a :=
    Memory.take_congr _ _ a fun c hc => Memory.read_write_of_ne m v (by omega)
  simp [Memory.take_succ, hbelow, Memory.read_write_self m a v hw, sumBytes_append, sumBytes]

/-- A payload byte stored, summed and counted (R105). -/
theorem invariants_payload {s : State} (hi : Invariants s) (hq : s.rxState = .payload) (v : Byte) :
    Invariants (countPayload v { s with rxBuf := s.rxBuf.write s.rxCnt.toNat v }) := by
  obtain ⟨hpos, hmax, hlt⟩ := hi.payload hq
  have hcnt : (s.rxCnt + 1).toNat = s.rxCnt.toNat + 1 := by bv_omega
  have hsum : s.rxSum + v =
      BitVec.ofNat 8 (sumBytes ((s.rxBuf.write s.rxCnt.toNat v).take (s.rxCnt + 1).toNat)) := by
    rw [hcnt, sumBytes_take_write hi.bufWf, hi.sum (.inl hq), BitVec.ofNat_add, BitVec.ofNat_toNat,
      BitVec.setWidth_eq]
  constructor
  case cfgValid => exact hi.cfgValid
  case escOff => exact hi.escOff
  case fid => exact hi.fid
  case bufWf => exact Memory.wf_write _ _ v hi.bufWf
  case sum => exact fun _ => hsum
  case lenMsb | lenLsb =>
    rw [countPayload_rxState]
    split <;> simp [hq]
  case payload =>
    rw [countPayload_rxState]
    split
    · simp
    · next hne =>
      refine fun _ => ⟨hpos, hmax, ?_⟩
      have hne' : s.rxCnt.toNat + 1 ≠ s.rxLen.toNat := fun h => hne (BitVec.eq_of_toNat_eq (hcnt.trans h))
      simp only [countPayload_rxCnt, countPayload_rxLen, hcnt]
      omega
  case checksum =>
    rw [countPayload_rxState]
    split
    · next he => exact fun _ => ⟨hmax, he⟩
    · simp [hq]

/-- The state interpretation keeps the invariants (R110), row by row. -/
theorem interpret_keeps_invariants {v : Byte} {s t : State} {e : Event} (hi : Invariants s)
    (h : interpret v s = .ok (e, t)) : Invariants t := by
  rcases interpret_cases h with ⟨-, -, rfl⟩ | ⟨hq, -, rfl⟩ | ⟨-, -, -, rfl⟩ | ⟨hq, ho, -, rfl⟩ |
    ⟨hq, -, -, rfl⟩ | ⟨-, -, -, -, rfl⟩ | ⟨-, -, -, rfl⟩
  · exact hi
  · exact invariants_lenMsb hi hq v
  · exact invariants_endFrame hi _
  · exact invariants_lenLsb hi hq ho
  · exact invariants_payload hi hq v
  · exact invariants_endFrame hi s.rxLen
  · exact invariants_endFrame hi s.rxLen

/-- `RX.BYTE` keeps the invariants, stage by stage (R95). -/
theorem receiveByte_keeps_invariants {b : Byte} {s t : State} {e : Event} (hi : Invariants s)
    (h : receiveByte b s = .ok (e, t)) : Invariants t := by
  rw [receiveByte_eq] at h
  split at h
  · exact interpret_keeps_invariants (invariants_rxEsc hi fun _ => rfl) h
  split at h
  · next hesc =>
    cases h
    exact invariants_rxEsc hi (by simp [hesc.1])
  split at h
  · rw [startDetected_eq] at h
    cases h
    exact invariants_startFrame hi
  · exact interpret_keeps_invariants hi h

theorem receiveBytes_keeps_invariants {bs : List Byte} {s t : State} {es : List Event} (hi : Invariants s)
    (h : receiveBytes bs s = .ok (es, t)) : Invariants t := by
  induction bs generalizing s es with
  | nil =>
    cases h
    exact hi
  | cons b bs ih =>
    obtain ⟨e, u, fs, hb, hbs, -⟩ := receiveBytes_cons_ok.mp h
    exact ih (receiveByte_keeps_invariants hi hb) hbs

theorem rxRuns_keeps_invariants {s u : State} (hi : Invariants s) (h : RxRuns s u) : Invariants u := by
  rcases h with ⟨b, e, h⟩ | ⟨v, e, h⟩ | ⟨bs, es, h⟩
  · exact receiveByte_keeps_invariants hi h
  · exact interpret_keeps_invariants (invariants_afterUnescape hi) h
  · exact receiveBytes_keeps_invariants hi h

/-- The counter never leaves 1..254 (42_frame_id.md R125, item 8). -/
theorem nextFid_range {c : Byte} (h : 1 ≤ c.toNat ∧ c.toNat ≤ 254) :
    1 ≤ (nextFid c).toNat ∧ (nextFid c).toNat ≤ 254 := by
  unfold nextFid
  split
  · decide
  · next hne =>
    have hne' : c.toNat ≠ 254 := fun h254 => hne (BitVec.eq_of_toNat_eq h254)
    bv_omega

theorem invariants_fidCtr {s : State} (hi : Invariants s) {c : Byte} (hc : 1 ≤ c.toNat ∧ c.toNat ≤ 254)
    (ids : List Byte) : Invariants { s with fidCtr := c, fidRet := ids } :=
  ⟨hi.cfgValid, hi.escOff, hi.lenMsb, hi.lenLsb, hi.payload, hi.checksum, hi.sum, hc, hi.bufWf⟩

/-- The seed of a configuration in range is an id (00_scope.md R6, 43_control.md R132). -/
theorem fidSeed_range {cfg : Config} (h : cfg.valid = true) :
    1 ≤ (BitVec.ofNat 8 cfg.fidSeed).toNat ∧ (BitVec.ofNat 8 cfg.fidSeed).toNat ≤ 254 := by
  simp only [Config.valid, Bool.and_eq_true, decide_eq_true_eq] at h
  rw [BitVec.toNat_ofNat]
  omega

/-- Every instruction keeps the invariants, unit by unit. -/
theorem exec_keeps_invariants {i : Instr} {s t : State} (hi : Invariants s) (h : exec i s = .next t) :
    Invariants t := by
  rcases exec_cases h with ⟨r, w, rfl⟩ | hu | ⟨-, rfl⟩ | ⟨cfg, -, hv, rfl⟩ | ⟨-, rfl⟩
  · exact invariants_of_sameRx hi rfl rfl ⟨rfl, rfl, rfl, rfl, rfl, rfl⟩
  · obtain ⟨r, u, hr, rfl⟩ := exec_rx_next hu h
    exact invariants_of_sameRx (rxRuns_keeps_invariants hi hr) rfl rfl ⟨rfl, rfl, rfl, rfl, rfl, rfl⟩
  · exact invariants_fidCtr hi (nextFid_range hi.fid) _
  · exact invariants_of_awaitStart rfl hv (fun _ => rfl) (fidSeed_range hv) hi.bufWf
  · exact invariants_of_awaitStart rfl hi.cfgValid (fun _ => rfl) hi.fid hi.bufWf

/-- Settles O59: a step idles or executes an instruction with the request taken off, and every instruction keeps the
invariants. -/
theorem everyStepKeepsTheInvariants : Obligations.EveryStepKeepsTheInvariants := by
  intro s t hi h
  rcases step_next h with ⟨-, rfl⟩ | ⟨r, rest, i, -, -, hx⟩
  · exact hi
  · have htaken : Invariants { s with pending := rest } :=
      invariants_of_sameRx hi rfl rfl ⟨rfl, rfl, rfl, rfl, rfl, rfl⟩
    exact exec_keeps_invariants htaken hx

/-- Settles O58: at reset RX is in `AWAIT_START`, where the items on the frame in progress ask nothing. -/
theorem resetStateIsLive : Obligations.ResetStateIsLive :=
  ⟨rfl, invariants_of_awaitStart rfl (by decide) (fun _ => rfl) (by decide) State.reset_rxBuf_wf⟩

/-- Settles O6: each value is that of the definition, and `RESET` with the defaults writes these values again. -/
theorem resetStateHasTheSpecsValues : Obligations.ResetStateHasTheSpecsValues :=
  ⟨rfl, rfl, rfl, rfl, rfl, rfl, rfl, rfl⟩

end Sys2Proof.Machine
end

section
/-! What each unit leaves alone (10_state.md R15, R23, R24; 20_memory.md R44), and the escape flag after `RX.BYTE`
(R17). -/

namespace Sys2Proof.Machine

/-- Settles O25: `txResult` reads the operand and the configuration alone. -/
theorem txIsAFunctionOfItsOperand : Obligations.TxIsAFunctionOfItsOperand := by
  intro i cfg hu
  refine ⟨(txResult cfg i).1, (txResult cfg i).2, fun s hs hc => ?_⟩
  subst hc
  rw [exec_tx i s hu, afterReset_eq hs]
  rfl

theorem sameOutsideRx_afterUnescape {s t : State} (h : SameOutsideRx (afterUnescape s) t) : SameOutsideRx s t := by
  simpa [SameOutsideRx] using h

theorem rxRuns_frame {s u : State} (h : RxRuns s u) : SameOutsideRx s u := by
  rcases h with ⟨b, e, h⟩ | ⟨v, e, h⟩ | ⟨bs, es, h⟩
  · exact (receiveByte_frame h).1
  · exact sameOutsideRx_afterUnescape (interpret_frame h).1
  · exact (receiveBytes_frame h).1

/-- Settles O57: the stages and the chunk loop change nothing outside RX, and the value returned is RX's own. -/
theorem receiverChangesOnlyItsOwn : Obligations.ReceiverChangesOnlyItsOwn := by
  intro i s t hu h
  obtain ⟨r, u, hr, rfl⟩ := exec_rx_next hu h
  have hframe : SameOutsideRx s u := rxRuns_frame hr
  exact hframe

/-- Settles O54, unit by unit: TX and `RX.FLUSH` write neither field, RX changes only its own, `RESET` hands out no
id. -/
theorem onlyAllocAndResetChangeTheCounter : Obligations.OnlyAllocAndResetChangeTheCounter := by
  intro i s t h hne
  rcases exec_cases h with ⟨r, w, rfl⟩ | hu | ⟨hi, -⟩ | ⟨cfg, rfl, -, rfl⟩ | ⟨-, rfl⟩
  · exact ⟨rfl, fun _ => rfl⟩
  · obtain ⟨-, -, hctr, -, -, hret, -⟩ := receiverChangesOnlyItsOwn i s t hu h
    exact ⟨hret, fun _ => hctr⟩
  · exact absurd hi hne
  · exact ⟨rfl, fun hr => absurd rfl (hr cfg)⟩
  · exact ⟨rfl, fun _ => rfl⟩

/-- The escape flag after one byte (41_rx_assembler.md R97): only an introducer sets it, and every other byte finds it
clear or clears it. -/
theorem receiveByte_rxEsc {b : Byte} {s t : State} {e : Event} (hoff : s.cfg.escEn = false → s.rxEsc = false)
    (h : receiveByte b s = .ok (e, t)) :
    t.rxEsc = true ↔ s.cfg.escEn = true ∧ s.rxEsc = false ∧ b = 0x7D := by
  rw [receiveByte_eq] at h
  split at h
  · next hpend =>
    obtain ⟨-, -, hesc, -⟩ := interpret_frame h
    simp [hesc, hpend.2]
  next hpend =>
  have hclear : s.rxEsc = false := by
    cases hen : s.cfg.escEn
    · exact hoff hen
    · simpa [hen] using hpend
  split at h
  · next hintro =>
    cases h
    simp [hintro, hclear]
  next hintro =>
  have hkept : t.rxEsc = s.rxEsc := by
    split at h
    · rw [startDetected_eq] at h
      cases h
      rfl
    · exact (interpret_frame h).2.2.1
  simpa [hkept, hclear] using hintro

/-- Settles O38: in a state of a run no escape is pending with escaping off (R30 item 2). -/
theorem escapePendingExactlyAfterIntroducer : Obligations.EscapePendingExactlyAfterIntroducer := by
  intro b s t hl h
  obtain ⟨e, u, hr, rfl⟩ := rxEvent_next.mp (afterReset_next.mp h).2
  rw [rxReturn_rxEsc]
  exact receiveByte_rxEsc hl.inv.escOff hr

end Sys2Proof.Machine
end

section
/-! The state interpretation as equations, one for each value of `rx_state` (41_rx_assembler.md R110), and what a read
of the buffer returns after RX has taken a byte (20_memory.md R35, R37). -/

namespace Sys2Proof.Machine

theorem interpret_of_awaitStart {s : State} (hq : s.rxState = .awaitStart) (v : Byte) :
    interpret v s = .ok (.none, s) := by
  simp only [interpret, hq, onAwaitStart, raise]

theorem interpret_of_lenMsb {s : State} (hq : s.rxState = .lenMsb) (v : Byte) :
    interpret v s = .ok (.none, { s with rxLen := joinBytes v 0, rxState := .lenLsb }) := by
  simp only [interpret, hq, onLenMsb, raise]

theorem interpret_of_lenLsb {s : State} (hq : s.rxState = .lenLsb) (v : Byte) :
    interpret v s = .ok (if overlen s.cfg (setLo s.rxLen v) then .dropOverlen else .none,
      { s with rxLen := setLo s.rxLen v,
               rxState := if overlen s.cfg (setLo s.rxLen v) then .awaitStart
                 else if setLo s.rxLen v = 0 then .checksum else .payload }) := by
  simp only [interpret, hq, onLenLsb]
  split
  · rfl
  · split <;> rfl

theorem interpret_of_payload {s : State} (hq : s.rxState = .payload) (hcnt : s.rxCnt.toNat < s.cfg.maxLen) (v : Byte) :
    interpret v s = .ok (.none, countPayload v { s with rxBuf := s.rxBuf.write s.rxCnt.toNat v }) := by
  simp only [interpret, hq, onPayload, memWrite_ok.mpr ⟨hcnt, rfl⟩, raise]

/-- The length is read only when the checksum matches. -/
theorem interpret_of_checksum {s : State} (hq : s.rxState = .checksum) {v : Byte}
    (hlen : sumMatches s.rxSum v = true → s.rxLen.toNat ≤ s.cfg.maxLen) :
    interpret v s = .ok (if sumMatches s.rxSum v then .frame (s.rxBuf.take s.rxLen.toNat) else .dropChecksum,
      { s with rxState := .awaitStart }) := by
  simp only [interpret, hq, onChecksum]
  split
  · next hm => simp only [memRead_ok.mpr ⟨hlen hm, rfl⟩, raise]
  · rfl

/-- The state interpretation stores in `PAYLOAD` only, and there at the count only (R105). -/
theorem interpret_read_ne {v : Byte} {s t : State} {e : Event} (h : interpret v s = .ok (e, t)) {a : Nat}
    (ha : t.rxBuf.read a ≠ s.rxBuf.read a) : s.rxState = .payload ∧ a = s.rxCnt.toNat := by
  rcases interpret_cases h with ⟨-, -, rfl⟩ | ⟨-, -, rfl⟩ | ⟨-, -, -, rfl⟩ | ⟨-, -, -, rfl⟩ |
    ⟨hq, -, -, rfl⟩ | ⟨-, -, -, -, rfl⟩ | ⟨-, -, -, rfl⟩
  case inr.inr.inr.inr.inl => exact ⟨hq, by_contra fun hne => ha (Memory.read_write_of_ne s.rxBuf v hne)⟩
  all_goals exact absurd rfl ha

/-- The unescape stage and the start detection leave the buffer alone. -/
theorem receiveByte_read_ne {b : Byte} {s t : State} {e : Event} (h : receiveByte b s = .ok (e, t)) {a : Nat}
    (ha : t.rxBuf.read a ≠ s.rxBuf.read a) : s.rxState = .payload ∧ a = s.rxCnt.toNat := by
  rw [receiveByte_eq] at h
  split at h
  · exact interpret_read_ne h ha
  split at h
  · cases h
    exact absurd rfl ha
  split at h
  · rw [startDetected_eq] at h
    cases h
    exact absurd rfl ha
  · exact interpret_read_ne h ha

theorem exec_rxBuf_of_not_rx {i : Instr} {s t : State} (hu : i.unit ≠ .rx) (h : exec i s = .next t) :
    t.rxBuf = s.rxBuf := by
  rcases exec_cases h with ⟨r, w, rfl⟩ | hrx | ⟨-, rfl⟩ | ⟨cfg, -, -, rfl⟩ | ⟨-, rfl⟩
  case inr.inl => exact absurd hrx hu
  all_goals rfl

/-- Settles O55: a one-byte instruction of RX presents a wire byte or a logical byte, and either is stored in `PAYLOAD`
at the count or not at all. -/
theorem bufferWrittenOnlyAtTheCount : Obligations.BufferWrittenOnlyAtTheCount := by
  intro i s t h
  refine ⟨fun hi a ha => ?_, fun hu => exec_rxBuf_of_not_rx hu h⟩
  rw [exec_rxOneByte i s hi, afterReset_next, rxEvent_next] at h
  obtain ⟨-, e, u, hr, rfl⟩ := h
  rcases rxCore_cases hi with ⟨b, hb⟩ | ⟨v, hv⟩
  · exact receiveByte_read_ne ((hb s).symm.trans hr) ha
  · simpa using interpret_read_ne ((hv s).symm.trans hr) (a := a) (by simpa using ha)

end Sys2Proof.Machine
end

section
/-! RX is local (20_memory.md R44, 41_rx_assembler.md R100): it reads `ESC_EN`, `MAX_LEN` and its own part of the state,
and writes that part alone. So RX runs in any surroundings with these two parameters as it runs in its own. -/

namespace Sys2Proof.Machine

/-- RX's part of `s` (its registers, the buffer and what RX returned) in the surroundings of `c`. -/
def withRxOf (s c : State) : State :=
  { c with rxState := s.rxState, rxEsc := s.rxEsc, rxLen := s.rxLen, rxCnt := s.rxCnt, rxSum := s.rxSum,
           rxBuf := s.rxBuf, rxRet := s.rxRet }

theorem withRxOf_eq_self {s t : State} (h : SameOutsideRx s t) : withRxOf t s = t := by
  obtain ⟨hstarted, hcfg, hfid, hstream, htx, hids, hpend⟩ := h
  simp only [withRxOf, ← hstarted, ← hcfg, ← hfid, ← hstream, ← htx, ← hids, ← hpend]

/-- `c` gives RX the parameters it reads as `s` does. -/
def SameRxParams (s c : State) : Prop := c.cfg.escEn = s.cfg.escEn ∧ c.cfg.maxLen = s.cfg.maxLen

theorem afterUnescape_withRxOf {s c : State} (hp : SameRxParams s c) :
    afterUnescape (withRxOf s c) = withRxOf (afterUnescape s) c := by
  simp only [afterUnescape, withRxOf, hp.1]
  split <;> rfl

theorem interpret_withRxOf {v : Byte} {s t c : State} {e : Event} (hp : SameRxParams s c)
    (h : interpret v s = .ok (e, t)) : interpret v (withRxOf s c) = .ok (e, withRxOf t c) := by
  have hover : overlen (withRxOf s c).cfg (setLo (withRxOf s c).rxLen v) = overlen s.cfg (setLo s.rxLen v) := by
    simp only [overlen, withRxOf, hp.2]
  rcases interpret_cases h with ⟨hq, rfl, rfl⟩ | ⟨hq, rfl, rfl⟩ | ⟨hq, ho, rfl, rfl⟩ | ⟨hq, ho, rfl, rfl⟩ |
    ⟨hq, hcnt, rfl, rfl⟩ | ⟨hq, hm, hlen, rfl, rfl⟩ | ⟨hq, hm, rfl, rfl⟩
  · exact interpret_of_awaitStart (s := withRxOf t c) hq v
  · exact interpret_of_lenMsb (s := withRxOf s c) hq v
  · rw [interpret_of_lenLsb (s := withRxOf s c) hq, hover, ho]
    rfl
  · rw [interpret_of_lenLsb (s := withRxOf s c) hq, hover, ho]
    rfl
  · exact interpret_of_payload (s := withRxOf s c) hq (hcnt.trans_eq hp.2.symm) v
  · rw [interpret_of_checksum (s := withRxOf s c) hq fun _ => hlen.trans_eq hp.2.symm]
    simp [withRxOf, hm]
  · rw [interpret_of_checksum (s := withRxOf s c) hq fun hm' => absurd (hm.symm.trans hm') (by decide)]
    simp [withRxOf, hm]

theorem receiveByte_withRxOf {b : Byte} {s t c : State} {e : Event} (hp : SameRxParams s c)
    (h : receiveByte b s = .ok (e, t)) : receiveByte b (withRxOf s c) = .ok (e, withRxOf t c) := by
  have hesc : (withRxOf s c).cfg.escEn = s.cfg.escEn := hp.1
  have hflag : (withRxOf s c).rxEsc = s.rxEsc := rfl
  rw [receiveByte_eq] at h ⊢
  rw [hesc, hflag]
  split at h
  · next hpend =>
    rw [if_pos hpend]
    exact interpret_withRxOf (s := { s with rxEsc := false }) hp h
  next hpend =>
  rw [if_neg hpend]
  split at h
  · next hintro =>
    cases h
    exact if_pos hintro
  next hintro =>
  rw [if_neg hintro]
  split at h
  · next hstart =>
    rw [startDetected_eq] at h
    cases h
    rw [if_pos hstart, startDetected_eq]
    rfl
  · next hstart =>
    rw [if_neg hstart]
    exact interpret_withRxOf hp h

theorem receiveBytes_withRxOf {bs : List Byte} {s t c : State} {es : List Event} (hp : SameRxParams s c)
    (h : receiveBytes bs s = .ok (es, t)) : receiveBytes bs (withRxOf s c) = .ok (es, withRxOf t c) := by
  induction bs generalizing s es with
  | nil =>
    cases h
    rfl
  | cons b bs ih =>
    obtain ⟨e, u, fs, hb, hbs, hes⟩ := receiveBytes_cons_ok.mp h
    obtain ⟨-, hcfg, -⟩ := (receiveByte_frame hb).1
    have hp' : SameRxParams u c := by rw [SameRxParams, hcfg]; exact hp
    exact receiveBytes_cons_ok.mpr ⟨e, _, fs, receiveByte_withRxOf hp hb, ih hp' hbs, hes⟩

/-- An instruction of RX runs in the surroundings of `c` as it runs in those of `s`. -/
theorem exec_rx_withRxOf {i : Instr} {s t c : State} (hu : i.unit = .rx) (hstarted : c.started = true)
    (hp : SameRxParams s c) (h : exec i s = .next t) : exec i (withRxOf s c) = .next (withRxOf t c) := by
  rcases rxOneByte_or_rxChunk hu with hi | ⟨bs, rfl⟩
  · rw [exec_rxOneByte i _ hi, afterReset_next, rxEvent_next] at h ⊢
    obtain ⟨-, e, u, hr, rfl⟩ := h
    refine ⟨hstarted, e, withRxOf u c, ?_, rfl⟩
    rcases rxCore_cases hi with ⟨b, hb⟩ | ⟨v, hv⟩
    · rw [hb] at hr ⊢
      exact receiveByte_withRxOf hp hr
    · rw [hv] at hr ⊢
      rw [afterUnescape_withRxOf hp]
      exact interpret_withRxOf (by simpa [SameRxParams] using hp) hr
  · obtain ⟨es, u, hr, rfl⟩ := rxEvents_next.mp (afterReset_next.mp h).2
    exact afterReset_next.mpr ⟨hstarted, rxEvents_next.mpr ⟨es, _, receiveBytes_withRxOf hp hr, rfl⟩⟩

/-- What an instruction of TX or FID answers, whatever RX's part of the state is: it leaves that part alone, and does
not change what RX reads outside it. -/
theorem exec_withRxOf_of_tx_or_fid {i : Instr} {s a : State} (hu : i.unit = .tx ∨ i.unit = .fid)
    (h : exec i s = .next a) :
    (∀ u, exec i (withRxOf u s) = .next (withRxOf u a)) ∧ withRxOf s a = a ∧ a.started = true ∧ SameRxParams s a := by
  rcases hu with hu | hu
  · rw [exec_tx i s hu, afterReset_next] at h
    obtain ⟨hs, h⟩ := h
    cases h
    refine ⟨fun u => ?_, rfl, hs, rfl, rfl⟩
    rw [exec_tx i _ hu]
    exact afterReset_eq hs _
  · cases i <;> simp only [Instr.unit, reduceCtorEq] at hu
    obtain ⟨hs, h⟩ := afterReset_next.mp h
    cases h
    exact ⟨fun u => afterReset_eq hs _, rfl, hs, rfl, rfl⟩

theorem tx_or_fid_commutes_with_rx {i j : Instr} {s a b : State} (hi : i.unit = .tx ∨ i.unit = .fid)
    (hj : j.unit = .rx) (ha : exec i s = .next a) (hb : exec j s = .next b) :
    ∃ t, exec j a = .next t ∧ exec i b = .next t := by
  obtain ⟨hrun, hown, hstarted, hp⟩ := exec_withRxOf_of_tx_or_fid hi ha
  have hb' : withRxOf b s = b := withRxOf_eq_self (receiverChangesOnlyItsOwn j s b hj hb)
  refine ⟨withRxOf b a, ?_, ?_⟩
  · rw [← hown]
    exact exec_rx_withRxOf hj hstarted hp hb
  · rw [← hb']
    exact hrun b

theorem tx_commutes_with_fid {i j : Instr} {s a b : State} (hi : i.unit = .tx) (hj : j.unit = .fid)
    (ha : exec i s = .next a) (hb : exec j s = .next b) : ∃ t, exec j a = .next t ∧ exec i b = .next t := by
  cases j <;> simp only [Instr.unit, reduceCtorEq] at hj
  rw [exec_tx i s hi, afterReset_next] at ha
  obtain ⟨hs, ha⟩ := ha
  cases ha
  cases (afterReset_next.mp hb).2
  refine ⟨_, afterReset_eq hs _, ?_⟩
  rw [exec_tx i _ hi]
  exact afterReset_eq hs _

/-- Settles O56, for each pair of units; the statement is symmetric in the two instructions. -/
theorem unitsCommute : Obligations.UnitsCommute := by
  intro i j s a b hi hj hne ha hb
  have hswap : (∃ t, exec i b = .next t ∧ exec j a = .next t) → ∃ t, exec j a = .next t ∧ exec i b = .next t :=
    fun ⟨t, h⟩ => ⟨t, h.symm⟩
  cases hui : i.unit <;> cases huj : j.unit
  case control.tx | control.rx | control.fid | control.control => exact absurd hui hi
  case tx.control | rx.control | fid.control => exact absurd huj hj
  case tx.tx | rx.rx | fid.fid => exact absurd (hui.trans huj.symm) hne
  case tx.fid => exact tx_commutes_with_fid hui huj ha hb
  case fid.tx => exact hswap (tx_commutes_with_fid huj hui hb ha)
  case tx.rx => exact tx_or_fid_commutes_with_rx (.inl hui) huj ha hb
  case fid.rx => exact tx_or_fid_commutes_with_rx (.inr hui) huj ha hb
  case rx.tx => exact hswap (tx_or_fid_commutes_with_rx (.inl huj) hui hb ha)
  case rx.fid => exact hswap (tx_or_fid_commutes_with_rx (.inr huj) hui hb ha)

end Sys2Proof.Machine
end

section
/-! Nothing before a start matters (20_memory.md R38, R45): two states of a run in the same place of a frame, with the
same bytes of it stored, take every byte alike, whatever else their buffers and records hold. -/

namespace Sys2Proof.Machine

/-- The two states are in the same place of a frame: one configuration, the same registers, and the same payload bytes
stored so far. -/
structure SameFrame (s s' : State) : Prop where
  cfg : s'.cfg = s.cfg
  rxState : s'.rxState = s.rxState
  rxEsc : s'.rxEsc = s.rxEsc
  rxLen : s'.rxLen = s.rxLen
  rxCnt : s'.rxCnt = s.rxCnt
  rxSum : s'.rxSum = s.rxSum
  stored : s'.rxBuf.take s.rxCnt.toNat = s.rxBuf.take s.rxCnt.toNat

theorem sameFrame_rxEsc {s s' : State} (h : SameFrame s s') (e : Bool) :
    SameFrame { s with rxEsc := e } { s' with rxEsc := e } :=
  ⟨h.cfg, h.rxState, rfl, h.rxLen, h.rxCnt, h.rxSum, h.stored⟩

/-- A start leaves nothing of what was in progress: no byte is stored yet (R98). -/
theorem sameFrame_startFrame {s s' : State} (hcfg : s'.cfg = s.cfg) (hesc : s'.rxEsc = s.rxEsc) :
    SameFrame (startFrame s) (startFrame s') :=
  ⟨hcfg, rfl, hesc, rfl, rfl, rfl, rfl⟩

theorem Memory.take_succ_write {m : Memory} (hw : m.wf) (a : Nat) (v : Byte) :
    (m.write a v).take (a + 1) = m.take a ++ [v] := by
  have hbelow : (m.write a v).take a = m.take a :=
    Memory.take_congr _ _ a fun c hc => Memory.read_write_of_ne m v (by omega)
  rw [Memory.take_succ, hbelow, Memory.read_write_self m a v hw]

/-- The same byte stored at the same count (R105). -/
theorem sameFrame_countPayload {s s' : State} (h : SameFrame s s') (hw : s.rxBuf.wf) (hw' : s'.rxBuf.wf)
    (hcnt : (s.rxCnt + 1).toNat = s.rxCnt.toNat + 1) (v : Byte) :
    SameFrame (countPayload v { s with rxBuf := s.rxBuf.write s.rxCnt.toNat v })
      (countPayload v { s' with rxBuf := s'.rxBuf.write s'.rxCnt.toNat v }) := by
  obtain ⟨hcfg, hq, hesc, hlen, hc, hsum, hstored⟩ := h
  constructor <;> simp only [countPayload_cfg, countPayload_rxState, countPayload_rxEsc, countPayload_rxLen,
    countPayload_rxCnt, countPayload_rxSum, countPayload_rxBuf, hcfg, hq, hesc, hlen, hc, hsum]
  case stored => rw [hcnt, Memory.take_succ_write hw, Memory.take_succ_write hw', hstored]

/-- The state interpretation completes on both sides, with one event, and keeps the two states in the same place
(R110). -/
theorem interpret_sameFrame {s s' : State} (hi : Invariants s) (hi' : Invariants s') (h : SameFrame s s') (v : Byte) :
    ∃ e t t', interpret v s = .ok (e, t) ∧ interpret v s' = .ok (e, t') ∧ SameFrame t t' := by
  cases hq : s.rxState
  case awaitStart =>
    exact ⟨_, _, _, interpret_of_awaitStart hq v, interpret_of_awaitStart (h.rxState.trans hq) v, h⟩
  case lenMsb =>
    exact ⟨_, _, _, interpret_of_lenMsb hq v, interpret_of_lenMsb (h.rxState.trans hq) v,
      h.cfg, rfl, h.rxEsc, rfl, h.rxCnt, h.rxSum, h.stored⟩
  case lenLsb =>
    have hright := interpret_of_lenLsb (h.rxState.trans hq) v
    rw [h.cfg, h.rxLen] at hright
    exact ⟨_, _, _, interpret_of_lenLsb hq v, hright, rfl, rfl, h.rxEsc, rfl, h.rxCnt, h.rxSum, h.stored⟩
  case payload =>
    obtain ⟨-, hmax, hlt⟩ := hi.payload hq
    have hq' := h.rxState.trans hq
    obtain ⟨-, hmax', hlt'⟩ := hi'.payload hq'
    exact ⟨_, _, _, interpret_of_payload hq (hlt.trans_le hmax) v, interpret_of_payload hq' (hlt'.trans_le hmax') v,
      sameFrame_countPayload h hi.bufWf hi'.bufWf (by bv_omega) v⟩
  case checksum =>
    obtain ⟨hmax, hcnt⟩ := hi.checksum hq
    have hq' := h.rxState.trans hq
    have hpayload : s'.rxBuf.take s.rxLen.toNat = s.rxBuf.take s.rxLen.toNat := hcnt ▸ h.stored
    have hright := interpret_of_checksum hq' (v := v) fun _ => (hi'.checksum hq').1
    rw [h.rxSum, h.rxLen, hpayload] at hright
    exact ⟨_, _, _, interpret_of_checksum hq fun _ => hmax, hright, h.cfg, rfl, h.rxEsc, rfl, h.rxCnt, rfl, h.stored⟩

/-- `RX.BYTE` completes on both sides, with one event, and keeps the two states in the same place (R95). -/
theorem receiveByte_sameFrame {s s' : State} (hi : Invariants s) (hi' : Invariants s') (h : SameFrame s s') (b : Byte) :
    ∃ e t t', receiveByte b s = .ok (e, t) ∧ receiveByte b s' = .ok (e, t') ∧ SameFrame t t' := by
  have hescEn : s'.cfg.escEn = s.cfg.escEn := congrArg Config.escEn h.cfg
  rw [receiveByte_eq, receiveByte_eq, hescEn, h.rxEsc]
  split
  · exact interpret_sameFrame (invariants_rxEsc hi fun _ => rfl) (invariants_rxEsc hi' fun _ => rfl)
      (sameFrame_rxEsc h false) _
  split
  · exact ⟨_, _, _, rfl, rfl, sameFrame_rxEsc h true⟩
  split
  · rw [startDetected_eq, startDetected_eq, h.rxState]
    exact ⟨_, _, _, rfl, rfl, sameFrame_startFrame h.cfg h.rxEsc⟩
  · exact interpret_sameFrame hi hi' h b

theorem receiveBytes_sameFrame {s s' : State} (hi : Invariants s) (hi' : Invariants s') (h : SameFrame s s')
    (bs : List Byte) :
    ∃ es t t', receiveBytes bs s = .ok (es, t) ∧ receiveBytes bs s' = .ok (es, t') ∧ SameFrame t t' := by
  induction bs generalizing s s' with
  | nil => exact ⟨_, _, _, rfl, rfl, h⟩
  | cons b bs ih =>
    obtain ⟨e, t, t', hb, hb', ht⟩ := receiveByte_sameFrame hi hi' h b
    obtain ⟨es, u, u', hbs, hbs', hu⟩ :=
      ih (receiveByte_keeps_invariants hi hb) (receiveByte_keeps_invariants hi' hb') ht
    exact ⟨_, u, u', receiveBytes_cons_ok.mpr ⟨e, t, es, hb, hbs, rfl⟩,
      receiveBytes_cons_ok.mpr ⟨e, t', es, hb', hbs', rfl⟩, hu⟩

theorem receiveByte_startByte {s : State} (hesc : s.rxEsc = false) :
    receiveByte 0x7E s = .ok (startDetected s) := by
  rw [receiveByte_eq]
  simp [hesc]

/-- With no escape pending `START_BYTE` begins a frame (R98). -/
theorem exec_rxByte_startByte {s a : State} (hesc : s.rxEsc = false) (h : exec (.rxByte 0x7E) s = .next a) :
    s.started = true ∧ ∃ r, a = rxReturn r (startFrame s) := by
  obtain ⟨hs, h⟩ := afterReset_next.mp h
  obtain ⟨e, u, hr, rfl⟩ := rxEvent_next.mp h
  rw [receiveByte_startByte hesc, startDetected_eq] at hr
  cases hr
  exact ⟨hs, _, rfl⟩

theorem exec_rxChunk_of_ok {bs : List Byte} {s t : State} {es : List Event} (hs : s.started = true)
    (h : receiveBytes bs s = .ok (es, t)) : exec (.rxChunk bs) s = .next (rxReturn (.chunk es) t) :=
  afterReset_next.mpr ⟨hs, rxEvents_next.mpr ⟨es, t, h, rfl⟩⟩

/-- Settles O50: after the start the two states are in the same place of a frame, and stay there byte by byte. -/
theorem nothingBeforeAStartMatters : Obligations.NothingBeforeAStartMatters := by
  intro bs s s' a a' hl hl' hcfg hesc hesc' ha ha'
  have hi : Invariants a := exec_keeps_invariants hl.inv ha
  have hi' : Invariants a' := exec_keeps_invariants hl'.inv ha'
  obtain ⟨hs, r, rfl⟩ := exec_rxByte_startByte hesc ha
  obtain ⟨hs', r', rfl⟩ := exec_rxByte_startByte hesc' ha'
  have hstart : SameFrame (rxReturn r (startFrame s)) (rxReturn r' (startFrame s')) :=
    sameFrame_startFrame (s := rxReturn r s) (s' := rxReturn r' s') hcfg.symm (hesc'.trans hesc.symm)
  obtain ⟨es, t, t', ht, ht', hsame⟩ := receiveBytes_sameFrame hi hi' hstart bs
  obtain ⟨-, hret, -⟩ := receiveBytes_frame ht
  obtain ⟨-, hret', -⟩ := receiveBytes_frame ht'
  exact ⟨_, _, es, exec_rxChunk_of_ok hs ht, exec_rxChunk_of_ok hs' ht', by rw [rxReturn_rxRet, hret],
    by rw [rxReturn_rxRet, hret'], hsame.rxState.symm, hsame.rxEsc.symm, hsame.rxLen.symm, hsame.rxCnt.symm,
    hsame.rxSum.symm⟩

end Sys2Proof.Machine
end

section
/-! The raw frame (30_encoding.md R55): its bytes, and that `decodeFrame` reads exactly the raw frames. -/

namespace Sys2Proof.Machine

theorem header_joinBytes (h l : Byte) : header (joinBytes h l) = [h, l] := by
  simp [header]

/-- The two bytes of a length, as numbers (R57); a length past the 16 bits is taken modulo 65536. -/
theorem header_ofNat (n : Nat) :
    header (BitVec.ofNat 16 n) = [BitVec.ofNat 8 (n / 256), BitVec.ofNat 8 (n % 256)] := by
  have hhi : BitVec.ofNat 8 (n % 65536 / 256) = BitVec.ofNat 8 (n / 256) := by
    apply BitVec.eq_of_toNat_eq
    simp only [BitVec.toNat_ofNat]
    omega
  simp [header, hiByte_eq, loByte_eq, hhi, Nat.mod_mod_of_dvd]

theorem rawFrameBytes_eq (p : List Byte) :
    rawFrameBytes p = startByte :: hiByte (BitVec.ofNat 16 p.length) :: loByte (BitVec.ofNat 16 p.length) ::
      (p ++ [cksum p]) :=
  rfl

theorem decodeFrame_rawFrameBytes {p : List Byte} (hp : p.length ≤ 65535) :
    decodeFrame (rawFrameBytes p) = .ok (.rawFrame p) := by
  have hlen : (BitVec.ofNat 16 p.length).toNat = p.length := by
    rw [BitVec.toNat_ofNat]
    omega
  simp [rawFrameBytes_eq, decodeFrame, hlen]

/-- Bytes that `decodeFrame` reads are the raw frame of a payload that the length field can count. -/
theorem decodeFrame_eq_ok {bs : List Byte} {i : Instr} (hd : decodeFrame bs = .ok i) :
    ∃ p, i = .rawFrame p ∧ p.length ≤ 65535 ∧ bs = rawFrameBytes p := by
  unfold decodeFrame at hd
  split at hd
  case h_2 => cases hd
  case h_1 b h l r =>
    split at hd
    · cases hd
    split at hd
    · cases hd
    split at hd
    · next hb hr hck =>
      cases hd
      have hstart : b = startByte := by simpa using hb
      have hrest : r.length = (joinBytes h l).toNat + 1 := by simpa using hr
      have hcount : (r.take (joinBytes h l).toNat).length = (joinBytes h l).toNat := by
        rw [List.length_take]
        omega
      have hhead : header (BitVec.ofNat 16 (r.take (joinBytes h l).toNat).length) = [h, l] := by
        rw [hcount, BitVec.ofNat_toNat, BitVec.setWidth_eq, header_joinBytes]
      refine ⟨_, rfl, ?_, ?_⟩
      · have := (joinBytes h l).isLt
        omega
      · rw [rawFrameBytes, rawBody, hhead, ← hck, List.append_assoc, List.take_append_drop, hstart]
        rfl
    · cases hd

end Sys2Proof.Machine
end

section
/-! Decoding and encoding are inverse to each other (30_encoding.md R60, R67): a request decodes to an instruction
exactly when it presents it. One direction goes along the decoders, the other along the instructions. -/

namespace Sys2Proof.Machine

/-- The request `r` presents the instruction `i`: it is its encoding, the operands are in range and the row applies. -/
def Presents (cfg : Config) (rxEsc : Bool) (r : Request) (i : Instr) : Prop :=
  encode cfg i = r ∧ i.wellFormed = true ∧ i.selected cfg rxEsc = true

theorem presents_decodeFrame (cfg : Config) (rxEsc : Bool) {bs : List Byte} {i : Instr}
    (hd : decodeFrame bs = .ok i) : Presents cfg rxEsc (.bits .frame bs) i := by
  obtain ⟨p, rfl, hp, rfl⟩ := decodeFrame_eq_ok hd
  exact ⟨rfl, by simpa [Instr.wellFormed] using hp, rfl⟩

/-- The row that the byte-class table gives a byte is one that applies to it (R60). -/
theorem presents_decodeRxByte (cfg : Config) (rxEsc : Bool) (b : Byte) :
    Presents cfg rxEsc (.bits .rxByte [b]) (decodeRxByte cfg rxEsc b) := by
  unfold decodeRxByte
  split
  · next hpend => exact ⟨rfl, rfl, hpend⟩
  next hpend =>
  rw [Bool.not_eq_true] at hpend
  split
  · next hintro =>
    simp only [Bool.and_eq_true, beq_iff_eq] at hintro
    obtain ⟨hen, rfl⟩ := hintro
    have hclear : rxEsc = false := by simpa [hen] using hpend
    exact ⟨rfl, rfl, by simp [Instr.selected, hen, hclear]⟩
  next hintro =>
  rw [Bool.not_eq_true] at hintro
  split
  · next hstart =>
    obtain rfl := beq_iff_eq.mp hstart
    exact ⟨rfl, rfl, by simp [Instr.selected, hpend]⟩
  · next hstart =>
    rw [Bool.not_eq_true] at hstart
    exact ⟨rfl, by simp [Instr.wellFormed, bne, hstart], by simp [Instr.selected, bne, hpend, hintro, hstart]⟩

/-- The row that decoding gives a byte to send is one that applies to it (R84). -/
theorem presents_decodeTxByte {cfg : Config} (rxEsc : Bool) {lead : Bool} {b : Byte} {i : Instr}
    (hd : decodeTxByte cfg lead b = .ok i) : Presents cfg rxEsc (.bits (.txByte lead) [b]) i := by
  unfold decodeTxByte at hd
  split at hd
  · next hlead =>
    subst hlead
    split at hd
    · next hstart =>
      cases hd
      exact ⟨rfl, hstart, rfl⟩
    · cases hd
  next hbody =>
  obtain rfl : lead = false := by simpa using hbody
  split at hd
  · next hoff =>
    cases hd
    exact ⟨rfl, rfl, by simp [Instr.selected, hoff]⟩
  next hon =>
  have hen : cfg.escEn = true := by simpa using hon
  split at hd
  · next hb =>
    cases hd
    obtain rfl := beq_iff_eq.mp hb
    exact ⟨rfl, rfl, hen⟩
  next hstart =>
  rw [beq_iff_eq] at hstart
  split at hd
  · next hb =>
    cases hd
    obtain rfl := beq_iff_eq.mp hb
    exact ⟨rfl, rfl, hen⟩
  next hesc =>
  rw [beq_iff_eq] at hesc
  split at hd
  · next hb =>
    cases hd
    obtain rfl := beq_iff_eq.mp hb
    exact ⟨rfl, rfl, by simpa [Instr.selected, hen] using ⟨hstart, hesc⟩⟩
  next hxon =>
  rw [beq_iff_eq] at hxon
  split at hd
  · next hb =>
    cases hd
    obtain rfl := beq_iff_eq.mp hb
    exact ⟨rfl, rfl, by simpa [Instr.selected, hen, and_assoc] using ⟨hstart, hesc, hxon⟩⟩
  · next hxoff =>
    rw [beq_iff_eq] at hxoff
    cases hd
    exact ⟨rfl, rfl, by simpa [Instr.selected, hen, reserved, and_assoc] using ⟨hstart, hesc, hxon, hxoff⟩⟩

/-- Each of the five codes has its row (10_state.md R16). -/
theorem presents_decodeRxState (cfg : Config) (rxEsc : Bool) {bs : List Byte} {i : Instr}
    (hd : decodeRxState bs = .ok i) : Presents cfg rxEsc (.bits .rxState bs) i := by
  unfold decodeRxState at hd
  split at hd
  · repeat' split at hd
    all_goals cases hd
    all_goals
      subst_vars
      exact ⟨rfl, rfl, rfl⟩
  · cases hd

theorem presents_oneByte {cfg : Config} {rxEsc : Bool} {k : Byte → Instr} {c : Byte} {r : List Byte} {i : Instr}
    (hk : ∀ v, Presents cfg rxEsc (.bits .event [c, v]) (k v)) (hd : oneByte k r = .ok i) :
    Presents cfg rxEsc (.bits .event (c :: r)) i := by
  unfold oneByte at hd
  split at hd
  · cases hd
    exact hk _
  · cases hd

/-- Each of the six codes has its row (60_exceptions.md R141). -/
theorem presents_decodeEvent (cfg : Config) (rxEsc : Bool) {bs : List Byte} {i : Instr}
    (hd : decodeEvent bs = .ok i) : Presents cfg rxEsc (.bits .event bs) i := by
  unfold decodeEvent at hd
  split at hd
  · cases hd
  split at hd
  · next hc => exact presents_oneByte (fun _ => hc ▸ ⟨rfl, rfl, rfl⟩) hd
  split at hd
  · next hc => exact presents_oneByte (fun _ => hc ▸ ⟨rfl, rfl, rfl⟩) hd
  split at hd
  · next hc => exact presents_oneByte (fun _ => hc ▸ ⟨rfl, rfl, rfl⟩) hd
  split at hd
  · next hc =>
    split at hd
    · next hr =>
      cases hd
      exact hc ▸ hr ▸ ⟨rfl, rfl, rfl⟩
    · cases hd
  split at hd
  · next hc => exact presents_oneByte (fun _ => hc ▸ ⟨rfl, rfl, rfl⟩) hd
  split at hd
  · next hc =>
    cases hd
    exact hc ▸ ⟨rfl, rfl, rfl⟩
  · cases hd

/-- An operation of R9 is presented as itself, and its row has no condition (R65). -/
theorem presents_host (cfg : Config) (rxEsc : Bool) {i : Instr} (hop : i.isHostOp = true)
    (hw : i.wellFormed = true) : Presents cfg rxEsc (.host i) i := by
  cases i <;> simp only [Instr.isHostOp, Bool.false_eq_true] at hop <;> exact ⟨rfl, hw, rfl⟩

theorem presents_of_decode {cfg : Config} {rxEsc : Bool} {r : Request} {i : Instr}
    (hd : decode cfg rxEsc r = .ok i) : Presents cfg rxEsc r i := by
  unfold decode at hd
  split at hd
  · split at hd
    · cases hd
    · next hop =>
      split at hd
      · next hw =>
        cases hd
        exact presents_host cfg rxEsc (by simpa using hop) hw
      · cases hd
  · exact presents_decodeFrame cfg rxEsc hd
  · cases hd
    exact presents_decodeRxByte cfg rxEsc _
  · cases hd
  · exact presents_decodeTxByte rxEsc hd
  · cases hd
  · exact presents_decodeRxState cfg rxEsc hd
  · exact presents_decodeEvent cfg rxEsc hd

theorem decode_host (cfg : Config) (rxEsc : Bool) {i : Instr} (hop : i.isHostOp = true) (hw : i.wellFormed = true) :
    decode cfg rxEsc (.host i) = .ok i := by
  simp [decode, hop, hw]

theorem startByte_ne_escapeByte : startByte ≠ escapeByte := by decide

/-- Of the rows for a received byte the one selected is the first whose condition holds (R60). -/
theorem decode_encode_rxByte {cfg : Config} {rxEsc : Bool} {i : Instr} (hf : i.format = some .rxByte)
    (hs : i.selected cfg rxEsc = true) : decode cfg rxEsc (encode cfg i) = .ok i := by
  cases i <;> simp only [Instr.format, reduceCtorEq, Option.some.injEq] at hf
  case escaped b => exact congrArg Except.ok (if_pos hs)
  case escIntro =>
    simp only [Instr.selected, Bool.and_eq_true, Bool.not_eq_true'] at hs
    simp [encode, decode, decodeRxByte, hs]
  case start =>
    simp only [Instr.selected, Bool.not_eq_true'] at hs
    simp [encode, decode, decodeRxByte, hs, startByte_ne_escapeByte, -Bool.and_eq_true]
  case data b =>
    simp only [Instr.selected, Bool.and_eq_true, Bool.not_eq_true', bne] at hs
    simp [encode, decode, decodeRxByte, hs, -Bool.and_eq_true, -beq_iff_eq]

/-- Of the rows for a byte to send the one selected is the first whose condition holds (R84). -/
theorem decode_encode_txByte {cfg : Config} (rxEsc : Bool) {i : Instr} {lead : Bool}
    (hf : i.format = some (.txByte lead)) (hw : i.wellFormed = true) (hs : i.selected cfg rxEsc = true) :
    decode cfg rxEsc (encode cfg i) = .ok i := by
  cases i <;> simp only [Instr.format, reduceCtorEq, Option.some.injEq] at hf
  case literal lead b =>
    cases lead
    case true => simpa [encode, decode, decodeTxByte, Instr.wellFormed] using hw
    case false =>
      cases hen : cfg.escEn
      case false => simp [encode, decode, decodeTxByte, hen]
      case true =>
        have hfree : reserved cfg b = false := by simpa [Instr.selected, hen] using hs
        simp only [reserved, Bool.or_eq_false_iff] at hfree
        simp [encode, decode, decodeTxByte, hen, hfree, -beq_iff_eq]
  case escStart | escEscape | escXon | escXoff =>
    simp only [Instr.selected, Bool.and_eq_true, bne_iff_ne] at hs
    simp [encode, decode, decodeTxByte, hs, startByte_ne_escapeByte.symm]

theorem decode_encode {cfg : Config} {rxEsc : Bool} {i : Instr} (hw : i.wellFormed = true)
    (hs : i.selected cfg rxEsc = true) : decode cfg rxEsc (encode cfg i) = .ok i := by
  cases i
  case rawFrame p => exact decodeFrame_rawFrameBytes (of_decide_eq_true hw)
  case escaped | escIntro | start | data => exact decode_encode_rxByte rfl hs
  case escStart | escEscape | escXon | escXoff | literal => exact decode_encode_txByte rxEsc rfl hw hs
  case txCksum | txHeader | txEsc | txSend | rxByte | rxChunk | fidAlloc | reset | rxFlush =>
    exact decode_host cfg rxEsc rfl hw
  case awaitStart | lenMsb | lenLsb | payload | checksum => rfl
  case evNone | evFrame | evDropChecksum | evDropAbort | evDropOverlen | evTxRefused => rfl

/-- Settles O1, format by format. -/
theorem decodeReadsBackEncode : Obligations.DecodeReadsBackEncode :=
  fun _ _ _ hw hs => decode_encode hw hs

/-- Settles O2: what a decoder reads is presented by the bytes it reads, format by format. -/
theorem everyRequestHasOneMeaning : Obligations.EveryRequestHasOneMeaning :=
  fun _ _ _ _ hd => presents_of_decode hd

/-- Settles O3: a byte presents each of the four rows, and the condition given for the row is the one that selects it. -/
theorem byteClassTableDecoded : Obligations.ByteClassTableDecoded := by
  intro cfg rxEsc b
  refine ⟨fun hen hesc => ?_, fun hen hesc hb => ?_, fun hclear hb => ?_, fun hclear hintro hb => ?_⟩
  · exact decode_encode (i := .escaped b) rfl (by simp [Instr.selected, hen, hesc])
  · subst hb
    exact decode_encode (i := .escIntro) rfl (by simp [Instr.selected, hen, hesc])
  · subst hb
    exact decode_encode (i := .start) rfl (by simpa [Instr.selected] using hclear)
  · have hdata : b ≠ startByte := hb
    have hplain : cfg.escEn = false ∨ b ≠ escapeByte := by
      simpa [Decidable.imp_iff_not_or, escapeByte] using hintro
    exact decode_encode (i := .data b) (bne_iff_ne.mpr hdata) (by simp [Instr.selected, hclear, hplain, hdata])

/-- Settles O4: each word is decoded by evaluation. -/
theorem sampleWordsDecode : Obligations.SampleWordsDecode :=
  ⟨rfl, rfl, rfl, rfl, rfl, rfl, rfl, rfl, rfl⟩

end Sys2Proof.Machine
end

section
/-! What the rows of format `tx_byte` and the row `RAW_FRAME` return (30_encoding.md R55, R58, R59). -/

namespace Sys2Proof.Machine

/-- An instruction of TX that emits nothing adds the bytes it returns to the record, and changes nothing else. -/
theorem exec_tx_bytes {i : Instr} {s : State} {bs : List Byte} (hs : s.started = true) (hu : i.unit = .tx)
    (hr : txResult s.cfg i = (.bytes bs, [])) : exec i s = .next { s with txRet := s.txRet ++ [.bytes bs] } := by
  rw [exec_tx i s hu, hr, afterReset_eq hs, ← txReturn_eq_txAnswer]
  rfl

/-- Settles O15: the result of each row is its branch for the mode. -/
theorem reservedBodyBytesSentAsPairs : Obligations.ReservedBodyBytesSentAsPairs := by
  intro s hs
  refine ⟨fun hen => ⟨?_, ?_, ?_, ?_⟩, fun hen => ⟨?_, ?_, ?_, ?_⟩⟩ <;>
    exact exec_tx_bytes hs rfl (by rw [txResult, hen]; rfl)

/-- A body byte is sent by `LITERAL` as by `TX.ESC` (R84). -/
theorem txResult_literal_body (cfg : Config) (b : Byte) :
    txResult cfg (.literal false b) = (.bytes (txEscBytes cfg b), []) := by
  simp only [txResult, txEscBytes]
  cases mustEscape cfg b <;> rfl

theorem reserved_eq_false_iff {cfg : Config} {b : Byte} :
    reserved cfg b = false ↔ b ≠ 0x7E ∧ b ≠ 0x7D ∧ b ≠ cfg.xonByte ∧ b ≠ cfg.xoffByte := by
  simp [reserved, startByte, escapeByte, and_assoc]

/-- Settles O16: a body byte is returned as `TX.ESC` returns it, and that is the byte itself where it is not escaped. -/
theorem literalSentAsItIs : Obligations.LiteralSentAsItIs := by
  intro b s hs
  have hbody := exec_tx_bytes hs rfl (txResult_literal_body s.cfg b)
  refine ⟨exec_tx_bytes hs rfl rfl, hbody.trans (exec_tx_bytes hs rfl rfl).symm, fun hfree => ?_⟩
  have hplain : mustEscape s.cfg b = false := by
    rcases hfree with hoff | hout
    · simp [mustEscape, hoff]
    · simp [mustEscape, reserved_eq_false_iff.mpr hout]
  simpa [txEscBytes, hplain] using hbody

/-- Settles O17: `TX` accepts the payload, and the length field holds the two bytes of its length. -/
theorem rawFrameReturned : Obligations.RawFrameReturned := by
  intro p s hs hlen
  have haccepted : tooLong s.cfg p = false := by simpa [tooLong] using hlen
  refine exec_tx_bytes hs rfl ?_
  simp [txResult, haccepted, rawFrameBytes, rawBody, header_ofNat, startByte, cksum]

end Sys2Proof.Machine
end

section
/-! A byte of class `DATA` (30_encoding.md R60 row 4, 41_rx_assembler.md R97): the row of the state in force takes it. -/

namespace Sys2Proof.Machine

/-- The row of any state of RX takes its logical byte through the interpretation of the state in force (R110). -/
theorem exec_row (q : RxState) (v : Byte) (s : State) :
    exec (q.row v) s = afterReset s (rxEvent (interpret v (afterUnescape s))) := by
  cases q <;> exact exec_rxOneByte _ s ⟨rfl, by simp [RxState.row]⟩

theorem exec_data (b : Byte) (s : State) : exec (.data b) s = exec (.rxByte b) s :=
  exec_rxOneByte (.data b) s ⟨rfl, by simp⟩

theorem receiveByte_of_dataClass {s : State} {v : Byte} (h : DataClass s v) : receiveByte v s = interpret v s := by
  obtain ⟨hpend, hintro, hstart⟩ := h
  exact (receiveByte_eq v s).trans ((if_neg hpend).trans ((if_neg hintro).trans (if_neg hstart)))

theorem afterUnescape_of_dataClass {s : State} {v : Byte} (h : DataClass s v) : afterUnescape s = s :=
  if_neg (by simpa [escapePending] using h.1)

/-- Settles O28: neither the unescape stage nor the start detection takes the byte. -/
theorem dataByteIsInterpreted : Obligations.DataByteIsInterpreted := by
  intro v s h
  have hrow : exec (.rxByte v) s = exec (s.rxState.row v) s := by
    rw [exec_row, afterUnescape_of_dataClass h, ← receiveByte_of_dataClass h]
    rfl
  exact ⟨hrow, (exec_data v s).trans hrow⟩

end Sys2Proof.Machine
end

section
/-! The checksum (40_tx_encoder.md R80, R81, R92): its forms, and that one changed byte changes it. -/

namespace Sys2Proof.Machine

/-- The form RX tests: the checksum is the one byte that brings the sum to 255 modulo 256. -/
theorem sumBytes_add_mod_eq_iff (p : List Byte) (c : Byte) :
    (sumBytes p + c.toNat) % 256 = 255 ↔ c = cksum p := by
  rw [← BitVec.toNat_inj, cksum_toNat]
  have := c.isLt
  omega

theorem cksum_eq_xor (p : List Byte) : cksum p = 0xFF#8 ^^^ BitVec.ofNat 8 (sumBytes p % 256) := by
  change cksum p = BitVec.allOnes 8 ^^^ _
  rw [BitVec.allOnes_xor, ← BitVec.toNat_inj, cksum_toNat, BitVec.toNat_not, BitVec.toNat_ofNat]
  omega

/-- An 8-bit register that starts at `acc` accumulates the sum modulo 256. -/
theorem foldl_add_eq (p : List Byte) (acc : Byte) :
    p.foldl (fun (acc b : Byte) => acc + b) acc = acc + BitVec.ofNat 8 (sumBytes p) := by
  induction p generalizing acc with
  | nil => simp [sumBytes]
  | cons b p ih => rw [List.foldl_cons, ih, sumBytes, BitVec.ofNat_add, BitVec.ofNat_toNat, BitVec.setWidth_eq,
      BitVec.add_assoc]

/-- Settles O12: the four forms, each by its own lemma. -/
theorem checksumFormsAgree : Obligations.ChecksumFormsAgree := by
  intro p
  refine ⟨cksum_toNat p, cksum_eq_xor p, sumBytes_add_mod_eq_iff p, ?_⟩
  rw [foldl_add_eq, ← BitVec.toNat_inj]
  simp

/-- Settles O24: two bytes differ by less than 256, so equal checksums leave no room for a difference. -/
theorem oneByteChangeChangesChecksum : Obligations.OneByteChangeChangesChecksum := by
  intro u v a b hab hck
  have hmod := congrArg BitVec.toNat hck
  simp only [cksum_toNat, sumBytes_append, sumBytes] at hmod
  refine hab (BitVec.eq_of_toNat_eq ?_)
  have := a.isLt
  have := b.isLt
  omega

end Sys2Proof.Machine
end

section
/-! What the operations of TX return and emit (40_tx_encoder.md R80 to R87). -/

namespace Sys2Proof.Machine

/-- `exec_tx_bytes` for whatever is returned, a byte and an event too. -/
theorem exec_tx_return {i : Instr} {s : State} {r : TxReturn} (hs : s.started = true) (hu : i.unit = .tx)
    (hr : txResult s.cfg i = (r, [])) : exec i s = .next { s with txRet := s.txRet ++ [r] } := by
  rw [exec_tx i s hu, hr, afterReset_eq hs, ← txReturn_eq_txAnswer]
  rfl

/-- Settles O11: the checksum is the whole result. -/
theorem checksumReturned : Obligations.ChecksumReturned :=
  fun _ _ hs => exec_tx_return hs rfl rfl

/-- Settles O13: the two slices of the length are its quotient and its remainder. -/
theorem headerReturned : Obligations.HeaderReturned :=
  fun n _ hs => exec_tx_bytes hs rfl (by rw [txResult, header, hiByte_eq, loByte_eq])

theorem mustEscape_iff {cfg : Config} {b : Byte} :
    mustEscape cfg b = true ↔
      cfg.escEn = true ∧ (b = 0x7E ∨ b = 0x7D ∨ b = cfg.xonByte ∨ b = cfg.xoffByte) := by
  simp [mustEscape, reserved, startByte, escapeByte, or_assoc]

/-- Settles O14: the byte is replaced exactly when it is in the reserved set and escaping is on. -/
theorem escapedByteReturned : Obligations.EscapedByteReturned :=
  fun _ _ hs => exec_tx_bytes hs rfl (by simp only [txResult, txEscBytes, mustEscape_iff]; rfl)

theorem txResult_txSend_of_le {cfg : Config} {p : List Byte} (h : p.length ≤ cfg.maxLen) :
    txResult cfg (.txSend p) = (.event .none, wireFrame cfg p) :=
  if_neg (by simpa [tooLong] using h)

theorem txResult_of_tooLong {cfg : Config} {p : List Byte} (h : cfg.maxLen < p.length) :
    txResult cfg (.txSend p) = (.event (.txRefused p.length), []) ∧
      txResult cfg (.rawFrame p) = (.event (.txRefused p.length), []) := by
  simp [txResult, tooLong, h]

/-- Settles O18: an accepted payload gives one wire frame, whose header holds the two bytes of the length. -/
theorem sendEmitsOneFrame : Obligations.SendEmitsOneFrame := by
  intro p s hs hlen
  rw [exec_tx _ s rfl, txResult_txSend_of_le hlen, afterReset_eq hs, txAnswer, wireFrame, rawBody, header_ofNat]
  rfl

/-- Settles O19: the row presents its payload to `TX.SEND`, and a long payload is refused by both operations. -/
theorem longPayloadRefused : Obligations.LongPayloadRefused := by
  intro p s
  refine ⟨(exec_tx (.evTxRefused p) s rfl).trans (exec_tx (.txSend p) s rfl).symm, fun hs hlong => ?_⟩
  obtain ⟨hsend, hraw⟩ := txResult_of_tooLong hlong
  exact ⟨exec_tx_return hs rfl hsend, exec_tx_return hs rfl hraw⟩

end Sys2Proof.Machine
end

section
/-! Escaped sequences (40_tx_encoder.md R84, R85): their length, their content in the default mode, and that they are
prefix-free byte by byte; and what this says of wire frames (R88, R90). -/

namespace Sys2Proof.Machine

theorem mustEscape_of_escEn {cfg : Config} (hen : cfg.escEn = true) (b : Byte) :
    mustEscape cfg b = reserved cfg b := by
  simp [mustEscape, hen]

theorem txEscBytes_of_mustEscape {cfg : Config} {b : Byte} (h : mustEscape cfg b = true) :
    txEscBytes cfg b = [escapeByte, flipEsc b] :=
  if_pos h

theorem txEscBytes_of_not_mustEscape {cfg : Config} {b : Byte} (h : mustEscape cfg b = false) :
    txEscBytes cfg b = [b] :=
  if_neg (by simp [h])

theorem length_escape (cfg : Config) (u : List Byte) :
    (escape cfg u).length = u.length + if cfg.escEn = true then (u.filter (reserved cfg)).length else 0 := by
  by_cases hen : cfg.escEn = true
  · rw [if_pos hen]
    induction u with
    | nil => rfl
    | cons b u ih =>
      have hb := mustEscape_of_escEn hen b
      cases hr : reserved cfg b <;> rw [hr] at hb
      · simp [escape, txEscBytes_of_not_mustEscape hb, hr, ih]
        omega
      · simp [escape, txEscBytes_of_mustEscape hb, hr, ih]
        omega
  · rw [if_neg hen, escape_of_escEn_false (by simpa using hen)]
    rfl

/-- Settles O20: each reserved byte grows by one, and the body holds the payload and three bytes more. -/
theorem wireFrameLengthCounted : Obligations.WireFrameLengthCounted := by
  refine fun cfg => ⟨length_escape cfg, fun p => ?_⟩
  have hbody : (rawBody p).length = p.length + 3 := by simp [rawBody, header]
  rw [wireFrame, List.length_cons, length_escape, hbody]
  omega

/-- In the default mode 2 a byte becomes one of four pairs, or stands for itself and is not reserved (R84). -/
theorem txEscBytes_default {cfg : Config} (hen : cfg.escEn = true) (hxon : cfg.xonByte = 0x11)
    (hxoff : cfg.xoffByte = 0x13) (b : Byte) :
    (∃ c ∈ [0x5E#8, 0x5D#8, 0x31#8, 0x33#8], txEscBytes cfg b = [0x7D, c]) ∨
      txEscBytes cfg b = [b] ∧ b ≠ 0x7E ∧ b ≠ 0x7D ∧ b ≠ 0x11 ∧ b ≠ 0x13 := by
  cases hm : mustEscape cfg b
  · refine .inr ⟨txEscBytes_of_not_mustEscape hm, ?_⟩
    rw [mustEscape_of_escEn hen, reserved_eq_false_iff, hxon, hxoff] at hm
    exact hm
  · refine .inl ⟨flipEsc b, ?_, txEscBytes_of_mustEscape hm⟩
    rw [mustEscape_iff, hxon, hxoff] at hm
    rcases hm.2 with rfl | rfl | rfl | rfl <;> decide

theorem mem_escape_default {cfg : Config} (hen : cfg.escEn = true) (hxon : cfg.xonByte = 0x11)
    (hxoff : cfg.xoffByte = 0x13) (u : List Byte) :
    ∀ x ∈ escape cfg u, x ≠ 0x7E ∧ x ≠ 0x11 ∧ x ≠ 0x13 := by
  induction u with
  | nil => simp [escape]
  | cons b u ih =>
    rw [escape, List.forall_mem_append]
    refine ⟨?_, ih⟩
    rcases txEscBytes_default hen hxon hxoff b with ⟨c, hc, he⟩ | ⟨he, h7E, -, h11, h13⟩
    · have hpair : ∀ c ∈ [0x5E#8, 0x5D#8, 0x31#8, 0x33#8], c ≠ 0x7E ∧ c ≠ 0x11 ∧ c ≠ 0x13 := by decide
      simpa [he] using hpair c hc
    · simpa [he] using ⟨h7E, h11, h13⟩

/-- In the default mode 2 the second byte of a pair is never `0x7D`, so each `0x7D` is a first byte. -/
theorem escape_pair_default {cfg : Config} (hen : cfg.escEn = true) (hxon : cfg.xonByte = 0x11)
    (hxoff : cfg.xoffByte = 0x13) (u : List Byte) (k : Nat) (hk : (escape cfg u)[k]? = some 0x7D) :
    ∃ c ∈ [0x5E#8, 0x5D#8, 0x31#8, 0x33#8], (escape cfg u)[k + 1]? = some c := by
  induction u generalizing k with
  | nil => simp [escape] at hk
  | cons b u ih =>
    rcases txEscBytes_default hen hxon hxoff b with ⟨c, hc, he⟩ | ⟨he, -, h7D, -, -⟩
    · rw [escape, he] at hk ⊢
      match k with
      | 0 => exact ⟨c, hc, rfl⟩
      | 1 =>
        have hsecond : c = 0x7D := by simpa using hk
        exact absurd (hsecond ▸ hc) (by decide)
      | k + 2 => exact ih k hk
    · rw [escape, he] at hk ⊢
      match k with
      | 0 => exact absurd (by simpa using hk) h7D
      | k + 1 => exact ih k hk

/-- Settles O21: the bytes after the first are an escaped sequence. -/
theorem wireFrameIsDelimited : Obligations.WireFrameIsDelimited :=
  fun _ p hen hxon hxoff => ⟨_, rfl, mem_escape_default hen hxon hxoff (rawBody p),
    escape_pair_default hen hxon hxoff (rawBody p)⟩

/-- A byte that stands for itself is not `0x7D` where a pair can occur. -/
theorem ne_escapeByte_of_mustEscape {cfg : Config} {b c : Byte} (hb : mustEscape cfg b = true)
    (hc : mustEscape cfg c = false) : c ≠ escapeByte := by
  rintro rfl
  simp [mustEscape, reserved, mustEscape_escEn hb] at hc

/-- The first byte of an escaped sequence and what follows its encoding are determined (R84). -/
theorem txEscBytes_append_inj {cfg : Config} {b c : Byte} {x y : List Byte}
    (h : txEscBytes cfg b ++ x = txEscBytes cfg c ++ y) : b = c ∧ x = y := by
  cases hb : mustEscape cfg b <;> cases hc : mustEscape cfg c
  case false.false =>
    simpa [txEscBytes_of_not_mustEscape hb, txEscBytes_of_not_mustEscape hc] using h
  case false.true =>
    simp [txEscBytes_of_not_mustEscape hb, txEscBytes_of_mustEscape hc, ne_escapeByte_of_mustEscape hc hb] at h
  case true.false =>
    simp [txEscBytes_of_mustEscape hb, txEscBytes_of_not_mustEscape hc, (ne_escapeByte_of_mustEscape hb hc).symm] at h
  case true.true =>
    simp only [txEscBytes_of_mustEscape hb, txEscBytes_of_mustEscape hc, List.cons_append, List.nil_append,
      List.cons.injEq, true_and] at h
    obtain ⟨hflip, hrest⟩ := h
    exact ⟨by simpa using congrArg flipEsc hflip, hrest⟩

theorem txEscBytes_ne_nil (cfg : Config) (b : Byte) : txEscBytes cfg b ≠ [] := by
  unfold txEscBytes escapePair
  split <;> simp

theorem prefix_of_escape_prefix {cfg : Config} {u v : List Byte} (h : escape cfg u <+: escape cfg v) : u <+: v := by
  induction u generalizing v with
  | nil => exact List.nil_prefix
  | cons b u ih =>
    cases v with
    | nil => exact absurd (List.append_eq_nil_iff.mp (List.prefix_nil.mp h)).1 (txEscBytes_ne_nil cfg b)
    | cons c v =>
      obtain ⟨r, hr⟩ := h
      rw [escape, escape, List.append_assoc] at hr
      obtain ⟨rfl, htail⟩ := txEscBytes_append_inj hr
      exact List.cons_prefix_cons.mpr ⟨rfl, ih ⟨r, htail⟩⟩

/-- The two length bytes determine the length. -/
theorem header_inj {m n : Half} (h : header m = header n) : m = n := by
  simp only [header, List.cons.injEq, and_true] at h
  rw [← joinBytes_halves m, h.1, h.2, joinBytes_halves]

/-- A raw body states the length of its payload, so it is no prefix of another (R90). -/
theorem eq_of_rawBody_prefix {p q : List Byte} (hp : p.length ≤ 65535) (hq : q.length ≤ 65535)
    (h : rawBody p <+: rawBody q) : p = q := by
  obtain ⟨r, hr⟩ := h
  simp only [rawBody, List.append_assoc] at hr
  obtain ⟨hhead, hrest⟩ := List.append_inj hr rfl
  have hlen : p.length = q.length := by
    have := congrArg BitVec.toNat (header_inj hhead)
    simp only [BitVec.toNat_ofNat] at this
    omega
  exact (List.append_inj hrest hlen).1

/-- Settles O23: a prefix on the wire is a prefix of the bodies, and a body is no proper prefix of another. -/
theorem wireFramesArePrefixFree : Obligations.WireFramesArePrefixFree :=
  fun _ _ _ hp hq h => eq_of_rawBody_prefix hp hq (prefix_of_escape_prefix (List.cons_prefix_cons.mp h).2)

end Sys2Proof.Machine
end

section
/-! A frame on its way into RX (40_tx_encoder.md R91, R92, 41_rx_assembler.md R95 to R107): the unescape stage hands the
state interpretation the bytes of the body, the length and the payload raise nothing, and the checksum decides. -/

namespace Sys2Proof.Machine

theorem receiveBytes_append_ok {xs ys : List Byte} {s t u : State} {es fs : List Event}
    (hx : receiveBytes xs s = .ok (es, t)) (hy : receiveBytes ys t = .ok (fs, u)) :
    receiveBytes (xs ++ ys) s = .ok (es ++ fs, u) := by
  simp only [receiveBytes_append, hx, hy]

theorem receiveBytes_singleton {b : Byte} {s t : State} {e : Event} (h : receiveByte b s = .ok (e, t)) :
    receiveBytes [b] s = .ok (reportIn e [], t) :=
  receiveBytes_cons_ok.mpr ⟨e, t, [], h, rfl, rfl⟩

/-- The encoding of a body byte `v` ends in a wire byte on which RX interprets `v`; what stands before that byte, if
anything, is an introducer. In mode 1 a `START_BYTE` is no body byte that RX can take (90_conflicts.md C4). -/
theorem txEscBytes_received {s : State} {v : Byte} (hesc : s.rxEsc = false)
    (hv : s.cfg.escEn = true ∨ v ≠ startByte) :
    ∃ pre w t, txEscBytes s.cfg v = pre ++ [w] ∧ receiveBytes pre s = .ok ([], t) ∧ t.rxState = s.rxState ∧
      receiveByte w t = interpret v s := by
  cases hm : mustEscape s.cfg v
  case true =>
    have hen : s.cfg.escEn = true := mustEscape_escEn hm
    have hintro : receiveByte escapeByte s = .ok (.none, { s with rxEsc := true }) := by
      rw [receiveByte_eq]
      simp [hesc, hen, escapeByte]
    have hback : ({ s with rxEsc := false } : State) = s := by rw [← hesc]
    refine ⟨[escapeByte], flipEsc v, { s with rxEsc := true }, txEscBytes_of_mustEscape hm,
      receiveBytes_singleton hintro, rfl, ?_⟩
    rw [receiveByte_eq, if_pos ⟨hen, rfl⟩, hback]
    exact congrArg (interpret · s) (flipEsc_flipEsc v)
  case false =>
    have hdata : DataClass s v := by
      refine ⟨by simp [hesc], fun hintro => ?_, fun hstart => ?_⟩
      · simp [mustEscape_iff, hintro, ← Bool.not_eq_true] at hm
      · have hen := hv.resolve_right (not_not_intro hstart)
        simp [mustEscape_iff, hen, hstart, ← Bool.not_eq_true] at hm
    exact ⟨[], v, s, txEscBytes_of_not_mustEscape hm, rfl, rfl, receiveByte_of_dataClass hdata⟩

/-- RX takes an escaped sequence as the state interpretation takes the bytes that it encodes. -/
theorem receiveBytes_escape_cons {s t u : State} {v : Byte} {vs : List Byte} {e : Event} {es : List Event}
    (hi : interpret v s = .ok (e, t)) (hesc : s.rxEsc = false) (hv : s.cfg.escEn = true ∨ v ≠ startByte)
    (hr : receiveBytes (escape t.cfg vs) t = .ok (es, u)) :
    receiveBytes (escape s.cfg (v :: vs)) s = .ok (reportIn e es, u) := by
  obtain ⟨pre, w, x, henc, hpre, -, hw⟩ := txEscBytes_received hesc hv
  obtain ⟨-, hcfg, -⟩ := (interpret_frame hi).1
  rw [escape, henc, ← hcfg, List.append_assoc]
  exact receiveBytes_append_ok hpre (receiveBytes_cons_ok.mpr ⟨e, t, es, hw.trans hi, hr, rfl⟩)

theorem receiveBytes_escape_singleton {s t : State} {v : Byte} {e : Event} (hi : interpret v s = .ok (e, t))
    (hesc : s.rxEsc = false) (hv : s.cfg.escEn = true ∨ v ≠ startByte) :
    receiveBytes (escape s.cfg [v]) s = .ok (reportIn e [], t) :=
  receiveBytes_escape_cons (vs := []) hi hesc hv rfl

/-- RX has taken the length `n` and then the payload bytes `p`, no escape is pending, and RX waits for the next payload
byte or, after `n` of them, for the checksum. -/
structure HasTaken (n : Half) (p : List Byte) (s : State) : Prop where
  inv : Invariants s
  rxEsc : s.rxEsc = false
  rxLen : s.rxLen = n
  rxState : s.rxState = if p.length = n.toNat then .checksum else .payload
  stored : s.rxBuf.take s.rxCnt.toNat = p

theorem HasTaken.rxCnt {n : Half} {p : List Byte} {s : State} (h : HasTaken n p s) : s.rxCnt.toNat = p.length := by
  rw [← h.stored, Memory.length_take]

theorem HasTaken.rxState_checksum {n : Half} {p : List Byte} {s : State} (h : HasTaken n p s)
    (hp : p.length = n.toNat) : s.rxState = .checksum :=
  h.rxState.trans (if_pos hp)

/-- The low byte completes a length that `MAX_LEN` allows (R103). -/
theorem interpret_lenLsb_hasTaken {s : State} {n : Half} (hi : Invariants s) (hq : s.rxState = .lenLsb)
    (hesc : s.rxEsc = false) (hset : setLo s.rxLen (loByte n) = n) (hmax : n.toNat ≤ s.cfg.maxLen) :
    ∃ t, interpret (loByte n) s = .ok (.none, t) ∧ HasTaken n [] t := by
  have hover : overlen s.cfg n = false := by simpa [overlen] using hmax
  have hlow := interpret_of_lenLsb hq (loByte n)
  simp only [hset, hover, Bool.false_eq_true, if_false] at hlow
  have hcnt : s.rxCnt = 0 := (hi.lenLsb hq).2.1
  have hzero : 0 = n.toNat ↔ n = 0 := by
    rw [← BitVec.toNat_inj, eq_comm]
    rfl
  exact ⟨_, hlow, interpret_keeps_invariants hi hlow, hesc, rfl, by simp [hzero], by simp [hcnt]⟩

/-- A length that `MAX_LEN` allows is taken without an event (R102, R103). -/
theorem receiveBytes_header {s : State} {n : Half} (hi : Invariants s) (hq : s.rxState = .lenMsb)
    (hesc : s.rxEsc = false) (hmax : n.toNat ≤ s.cfg.maxLen)
    (hclear : s.cfg.escEn = true ∨ startByte ∉ header n) :
    ∃ t, receiveBytes (escape s.cfg (header n)) s = .ok ([], t) ∧ HasTaken n [] t := by
  have hv : ∀ v ∈ header n, s.cfg.escEn = true ∨ v ≠ startByte :=
    fun v hv => hclear.imp_right fun h he => h (he ▸ hv)
  have hhigh := interpret_of_lenMsb hq (hiByte n)
  obtain ⟨t, hlow, ht⟩ := interpret_lenLsb_hasTaken (interpret_keeps_invariants hi hhigh) rfl hesc
    (by simp [setLo]) hmax
  exact ⟨t, receiveBytes_escape_cons hhigh hesc (hv (hiByte n) (by simp [header]))
    (receiveBytes_escape_singleton hlow hesc (hv (loByte n) (by simp [header]))), ht⟩

/-- A payload byte is taken without an event (R105). -/
theorem HasTaken.interpret_payload {n : Half} {p : List Byte} {s : State} (h : HasTaken n p s)
    (hp : p.length < n.toNat) (v : Byte) :
    ∃ t, interpret v s = .ok (.none, t) ∧ HasTaken n (p ++ [v]) t := by
  have hq : s.rxState = .payload := h.rxState.trans (if_neg (by omega))
  obtain ⟨-, hmax, hlt⟩ := h.inv.payload hq
  have hnext : (s.rxCnt + 1).toNat = s.rxCnt.toNat + 1 := by bv_omega
  have hv := interpret_of_payload hq (hlt.trans_le hmax) v
  have hfull : s.rxCnt + 1 = s.rxLen ↔ (p ++ [v]).length = n.toNat := by
    rw [← BitVec.toNat_inj, hnext, h.rxLen, h.rxCnt, List.length_append, List.length_singleton]
  refine ⟨_, hv, interpret_keeps_invariants h.inv hv, h.rxEsc, h.rxLen, ?_, ?_⟩
  · simp only [countPayload_rxState, hfull, hq]
  · simp only [countPayload_rxCnt, countPayload_rxBuf, hnext, Memory.take_succ_write h.inv.bufWf, h.stored]

theorem HasTaken.receiveBytes_payload {n : Half} {p q : List Byte} {s : State} (h : HasTaken n p s)
    (hlen : (p ++ q).length ≤ n.toNat) (hclear : s.cfg.escEn = true ∨ startByte ∉ q) :
    ∃ t, receiveBytes (escape s.cfg q) s = .ok ([], t) ∧ HasTaken n (p ++ q) t := by
  induction q generalizing p s with
  | nil => exact ⟨s, rfl, by simpa using h⟩
  | cons v q ih =>
    have hroom : p.length < n.toNat := by
      simp only [List.length_append, List.length_cons] at hlen
      omega
    obtain ⟨t, hv, ht⟩ := h.interpret_payload hroom v
    obtain ⟨-, hcfg, -⟩ := (interpret_frame hv).1
    obtain ⟨u, hu, htaken⟩ := ih ht (by simpa using hlen)
      (hcfg ▸ hclear.imp_right fun hq hmem => hq (List.mem_cons_of_mem v hmem))
    exact ⟨u, receiveBytes_escape_cons hv h.rxEsc (hclear.imp_right fun hq he => hq (he ▸ List.mem_cons_self)) hu,
      by simpa using htaken⟩

/-- The checksum of the payload taken delivers it, and any other byte drops it (R107). -/
theorem HasTaken.interpret_checksum {n : Half} {p : List Byte} {s : State} (h : HasTaken n p s)
    (hp : p.length = n.toNat) (v : Byte) :
    interpret v s = .ok (if v = cksum p then .frame p else .dropChecksum, { s with rxState := .awaitStart }) := by
  have hq := h.rxState_checksum hp
  obtain ⟨hmax, hcnt⟩ := h.inv.checksum hq
  have hsum : s.rxSum = BitVec.ofNat 8 (sumBytes p) := by rw [h.inv.sum (.inr hq), h.stored]
  have hmatch : sumMatches s.rxSum v = true ↔ v = cksum p := by
    rw [← sumBytes_add_mod_eq_iff, sumMatches, hsum]
    simp
  rw [interpret_of_checksum hq fun _ => hmax, ← hcnt, h.stored]
  simp only [hmatch]

theorem maxLen_le_of_invariants {s : State} (hi : Invariants s) : s.cfg.maxLen ≤ 65535 := by
  have hvalid := hi.cfgValid
  simp only [Config.valid, Bool.and_eq_true, decide_eq_true_eq] at hvalid
  omega

/-- With no escape pending a frame is taken up to its checksum, and nothing but its start can raise an event (R98 to
R105). -/
theorem receiveBytes_upToChecksum {s : State} {p : List Byte} (hi : Invariants s) (hesc : s.rxEsc = false)
    (hmax : p.length ≤ s.cfg.maxLen)
    (hclear : s.cfg.escEn = true ∨ startByte ∉ header (BitVec.ofNat 16 p.length) ++ p) :
    ∃ t, receiveBytes (startByte :: escape s.cfg (header (BitVec.ofNat 16 p.length) ++ p)) s =
        .ok (reportIn (startDetected s).1 [], t) ∧
      HasTaken (BitVec.ofNat 16 p.length) p t ∧ p.length = (BitVec.ofNat 16 p.length).toNat := by
  have hlen : p.length = (BitVec.ofNat 16 p.length).toNat := by
    have := maxLen_le_of_invariants hi
    rw [BitVec.toNat_ofNat]
    omega
  obtain ⟨t, hhead, htaken⟩ := receiveBytes_header (s := startFrame s) (invariants_startFrame hi) rfl hesc
    (hlen ▸ hmax) (hclear.imp_right fun h hm => h (List.mem_append_left _ hm))
  obtain ⟨-, hcfg, -⟩ := (receiveBytes_frame hhead).1
  obtain ⟨u, hpay, htaken'⟩ := htaken.receiveBytes_payload (q := p) hlen.le
    (hcfg ▸ hclear.imp_right fun h hm => h (List.mem_append_right _ hm))
  refine ⟨u, receiveBytes_cons_ok.mpr ⟨_, startFrame s, [], ?_, ?_, rfl⟩, htaken', hlen⟩
  · exact (receiveByte_startByte hesc).trans (by rw [startDetected_eq])
  · rw [hcfg] at hpay
    rw [escape_append]
    exact receiveBytes_append_ok hhead hpay

theorem reportIn_startDetected {s : State} (hq : s.rxState = .awaitStart) :
    reportIn (startDetected s).1 [] = [] := by
  rw [startDetected_eq, if_pos hq]
  rfl

/-- A whole frame with the checksum byte `c`: its payload is delivered or dropped (R107). -/
theorem receiveBytes_frameWithChecksum {s : State} {p : List Byte} {c : Byte} (hi : Invariants s)
    (hesc : s.rxEsc = false) (hmax : p.length ≤ s.cfg.maxLen)
    (hclear : s.cfg.escEn = true ∨ startByte ∉ header (BitVec.ofNat 16 p.length) ++ p ++ [c]) :
    ∃ t, receiveBytes (startByte :: escape s.cfg (header (BitVec.ofNat 16 p.length) ++ p ++ [c])) s =
        .ok (reportIn (startDetected s).1 [] ++ [if c = cksum p then .frame p else .dropChecksum], t) ∧
      t.rxState = .awaitStart ∧ t.rxEsc = false := by
  obtain ⟨t, hpre, htaken, hlen⟩ := receiveBytes_upToChecksum hi hesc hmax
    (hclear.imp_right fun h hm => h (List.mem_append_left _ hm))
  obtain ⟨-, hcfg, -⟩ := (receiveBytes_frame hpre).1
  have hlast : receiveBytes (escape s.cfg [c]) t =
      .ok ([if c = cksum p then .frame p else .dropChecksum], { t with rxState := .awaitStart }) := by
    rw [← hcfg, receiveBytes_escape_singleton (htaken.interpret_checksum hlen c) htaken.rxEsc
      (hcfg ▸ hclear.imp_right fun h he => h (by simp [he]))]
    split <;> rfl
  refine ⟨{ t with rxState := .awaitStart }, ?_, rfl, htaken.rxEsc⟩
  rw [escape_append, ← List.cons_append]
  exact receiveBytes_append_ok hpre hlast

/-- Settles O48: the payload that arrives has another checksum than the one it carries. -/
theorem oneByteChangeIsRejected : Obligations.OneByteChangeIsRejected := by
  intro u v a b s hl hesc hq hab hmax hclear
  obtain ⟨t, ht, hawait, -⟩ := receiveBytes_frameWithChecksum hl.inv hesc hmax hclear
  rw [reportIn_startDetected hq, if_neg (oneByteChangeChangesChecksum u v a b hab)] at ht
  obtain ⟨-, hret, -⟩ := receiveBytes_frame ht
  exact ⟨_, exec_rxChunk_of_ok hl.started ht, by rw [rxReturn_rxRet, hret]; rfl, hawait⟩

/-- What RX returned before makes no difference to the next byte. -/
theorem receiveByte_rxReturn {b : Byte} {s t : State} {e : Event} (hi : Invariants s) (r : RxReturn)
    (h : receiveByte b s = .ok (e, t)) :
    ∃ u, receiveByte b (rxReturn r s) = .ok (e, u) ∧ u.rxState = t.rxState := by
  have hi' : Invariants (rxReturn r s) := invariants_of_sameRx hi rfl rfl ⟨rfl, rfl, rfl, rfl, rfl, rfl⟩
  obtain ⟨e', t', u, ht, hu, hsame⟩ := receiveByte_sameFrame hi hi' ⟨rfl, rfl, rfl, rfl, rfl, rfl, rfl⟩ b
  cases h.symm.trans ht
  exact ⟨u, hu, hsame.rxState⟩

/-- Settles O46: the last wire byte is the one on which RX interprets the checksum. -/
theorem frameArrivesOnItsLastByte : Obligations.FrameArrivesOnItsLastByte := by
  intro p s hl hesc hq hmax hclear
  obtain ⟨t, hpre, htaken, hlen⟩ := receiveBytes_upToChecksum hl.inv hesc hmax
    (hclear.imp_right fun h hm => h (List.mem_append_left _ hm))
  rw [reportIn_startDetected hq] at hpre
  obtain ⟨-, hcfg, -⟩ := (receiveBytes_frame hpre).1
  obtain ⟨pre, w, x, henc, hintro, hstate, hw⟩ := txEscBytes_received htaken.rxEsc (v := cksum p)
    (hcfg ▸ hclear.imp_right fun h he => h (by simp [rawBody, he]))
  have hwire : wireFrame s.cfg p =
      startByte :: escape s.cfg (header (BitVec.ofNat 16 p.length) ++ p) ++ pre ++ [w] := by
    rw [wireFrame, rawBody, escape_append, List.append_assoc, ← henc, hcfg]
    simp [escape]
  have hchunk := receiveBytes_append_ok hpre hintro
  obtain ⟨⟨hstarted, -⟩, hret, -⟩ := receiveBytes_frame hchunk
  rw [htaken.interpret_checksum hlen, if_pos rfl] at hw
  obtain ⟨u, hu, hawait⟩ := receiveByte_rxReturn (receiveBytes_keeps_invariants hl.inv hchunk) (.chunk []) hw
  obtain ⟨-, hret', -⟩ := receiveByte_frame hu
  refine ⟨w, rxReturn (.chunk []) x, rxReturn (.event (.frame p)) u, by rw [hwire, List.getLast?_concat], ?_,
    by rw [rxReturn_rxRet, hret], hstate.trans (htaken.rxState_checksum hlen), ?_, by rw [rxReturn_rxRet, hret'],
    hawait⟩
  · rw [hwire, List.dropLast_concat]
    exact exec_rxChunk_of_ok hl.started hchunk
  · exact afterReset_next.mpr ⟨hstarted.trans hl.started, rxEvent_next.mpr ⟨_, u, hu, rfl⟩⟩

end Sys2Proof.Machine
end

section
/-! In every state of a run RX completes (41_rx_assembler.md R111), and so does every instruction that the decoder
answers: there is no stuck state (60_exceptions.md R152). -/

namespace Sys2Proof.Machine

theorem sameFrame_refl (s : State) : SameFrame s s := ⟨rfl, rfl, rfl, rfl, rfl, rfl, rfl⟩

theorem interpret_completes {s : State} (hi : Invariants s) (v : Byte) : ∃ e t, interpret v s = .ok (e, t) := by
  obtain ⟨e, t, -, h, -⟩ := interpret_sameFrame hi hi (sameFrame_refl s) v
  exact ⟨e, t, h⟩

theorem receiveByte_completes {s : State} (hi : Invariants s) (b : Byte) : ∃ e t, receiveByte b s = .ok (e, t) := by
  obtain ⟨e, t, -, h, -⟩ := receiveByte_sameFrame hi hi (sameFrame_refl s) b
  exact ⟨e, t, h⟩

theorem receiveBytes_completes {s : State} (hi : Invariants s) (bs : List Byte) :
    ∃ es t, receiveBytes bs s = .ok (es, t) := by
  obtain ⟨es, t, -, h, -⟩ := receiveBytes_sameFrame hi hi (sameFrame_refl s) bs
  exact ⟨es, t, h⟩

/-- A wire byte and a logical byte alike complete, with an event of RX that is not returned yet. -/
theorem rxCore_completes {i : Instr} {s : State} (h : i.rxOneByte) (hi : Invariants s) :
    ∃ e t, rxCore i s = .ok (e, t) ∧ t.rxRet = s.rxRet ∧ ∀ n, e ≠ .txRefused n := by
  rcases rxCore_cases h with ⟨b, hb⟩ | ⟨v, hv⟩
  · obtain ⟨e, t, ht⟩ := receiveByte_completes hi b
    obtain ⟨-, hret, he⟩ := receiveByte_frame ht
    exact ⟨e, t, (hb s).trans ht, hret, he⟩
  · obtain ⟨e, t, ht⟩ := interpret_completes (invariants_afterUnescape hi) v
    obtain ⟨-, hret, -, he⟩ := interpret_frame ht
    exact ⟨e, t, (hv s).trans ht, by simpa using hret, he⟩

theorem exec_rxOneByte_of_ok {i : Instr} {s t : State} {e : Event} (hs : s.started = true) (h : i.rxOneByte)
    (hr : rxCore i s = .ok (e, t)) : exec i s = .next (rxReturn (.event e) t) := by
  rw [exec_rxOneByte i s h, afterReset_eq hs, hr]
  rfl

/-- No instruction takes a state out of the run: none of them clears the flag of R133 (log entry 4). -/
theorem exec_keeps_live {i : Instr} {s t : State} (hl : Live s) (h : exec i s = .next t) : Live t := by
  refine ⟨?_, exec_keeps_invariants hl.inv h⟩
  rcases exec_cases h with ⟨r, w, rfl⟩ | hu | ⟨-, rfl⟩ | ⟨cfg, -, -, rfl⟩ | ⟨-, rfl⟩
  · exact hl.started
  · exact (receiverChangesOnlyItsOwn i s t hu h).1.trans hl.started
  · exact hl.started
  · rfl
  · exact hl.started

/-- Settles O36: the byte completes with an event of RX, whichever stage it is presented at. -/
theorem everyByteIsHandled : Obligations.EveryByteIsHandled := by
  intro i s h hl
  obtain ⟨e, t, hr, hret, he⟩ := rxCore_completes h hl.inv
  have hx := exec_rxOneByte_of_ok hl.started h hr
  exact ⟨_, e, hx, by rw [rxReturn_rxRet, hret], he, receiverChangesOnlyItsOwn i s _ h.1 hx, exec_keeps_live hl hx⟩

/-- Settles O43: the chunk loop completes, as each of its bytes does. -/
theorem everyChunkIsHandled : Obligations.EveryChunkIsHandled := by
  intro bs s hl
  obtain ⟨es, t, hr⟩ := receiveBytes_completes hl.inv bs
  obtain ⟨-, hret, hlen, hnone⟩ := receiveBytes_frame hr
  have hx := exec_rxChunk_of_ok hl.started hr
  exact ⟨_, es, hx, by rw [rxReturn_rxRet, hret], hlen, hnone, receiverChangesOnlyItsOwn _ s _ rfl hx,
    exec_keeps_live hl hx⟩

/-- In a state of a run every well-formed instruction answers a next state, unit by unit. -/
theorem exec_completes {i : Instr} {s : State} (hl : Live s) (hw : i.wellFormed = true) : ∃ t, exec i s = .next t := by
  cases hu : i.unit
  case tx => exact ⟨_, (exec_tx i s hu).trans (afterReset_eq hl.started _)⟩
  case rx =>
    rcases rxOneByte_or_rxChunk hu with h | ⟨bs, rfl⟩
    · obtain ⟨t, -, hx, -⟩ := everyByteIsHandled i s h hl
      exact ⟨t, hx⟩
    · obtain ⟨t, -, hx, -⟩ := everyChunkIsHandled bs s hl
      exact ⟨t, hx⟩
  case fid =>
    cases i <;> simp only [Instr.unit, reduceCtorEq] at hu
    exact ⟨_, afterReset_eq hl.started _⟩
  case control =>
    cases i <;> simp only [Instr.unit, reduceCtorEq] at hu
    case reset cfg => exact ⟨_, if_pos hw⟩
    case rxFlush => exact ⟨_, afterReset_eq hl.started _⟩

/-- Settles O60: what the decoder answers is well formed, so it completes; what it rejects the step refuses. -/
theorem noStepOfARunFaults : Obligations.NoStepOfARunFaults := by
  intro s hl
  cases hp : s.pending with
  | nil => exact .inl ⟨s, step_of_pending_nil hp, hl⟩
  | cons r rest =>
    cases hd : decode s.cfg s.rxEsc r with
    | error e => exact .inr ⟨r, rest, e, rfl, hd, step_of_decode_error hp hd⟩
    | ok i =>
      obtain ⟨-, hw, -⟩ := presents_of_decode hd
      have htaken : Live { s with pending := rest } :=
        ⟨hl.started, invariants_of_sameRx hl.inv rfl rfl ⟨rfl, rfl, rfl, rfl, rfl, rfl⟩⟩
      obtain ⟨t, hx⟩ := exec_completes htaken hw
      exact .inl ⟨t, (step_of_decode_ok hp hd).trans hx, exec_keeps_live htaken hx⟩

end Sys2Proof.Machine
end

section
/-! A wire frame in a stream: after it RX is in `AWAIT_START` again and the payload is delivered (41_rx_assembler.md
R116, R117, R119). -/

namespace Sys2Proof.Machine

/-- With no escape pending the wire frame of `p` delivers `p`; all else it can report is that it cut a frame short. -/
theorem receiveBytes_wireFrame {s : State} {p : List Byte} (hi : Invariants s) (hesc : s.rxEsc = false)
    (hmax : p.length ≤ s.cfg.maxLen) (hclear : s.cfg.escEn = true ∨ startByte ∉ rawBody p) :
    ∃ t, receiveBytes (wireFrame s.cfg p) s =
        .ok (if s.rxState = .awaitStart then [.frame p] else [.dropAbort, .frame p], t) ∧
      t.rxState = .awaitStart ∧ t.rxEsc = false := by
  obtain ⟨t, ht, hq, hesc'⟩ := receiveBytes_frameWithChecksum hi hesc hmax hclear
  refine ⟨t, ?_, hq, hesc'⟩
  rw [if_pos rfl, startDetected_eq] at ht
  rw [wireFrame, rawBody, ht]
  split <;> rfl

/-- Settles O45: the bytes emitted are the wire frame under the receiver's own configuration. -/
theorem sentFrameIsReceived : Obligations.SentFrameIsReceived := by
  intro p w s x y hl hesc hx hcfg hmax hclear hsend hw
  rw [exec_tx _ x rfl, hcfg, txResult_txSend_of_le hmax, afterReset_eq hx] at hsend
  cases hsend
  obtain rfl : wireFrame s.cfg p = w := List.append_cancel_left hw
  obtain ⟨t, ht, hq, hesc'⟩ := receiveBytes_wireFrame hl.inv hesc hmax hclear
  obtain ⟨-, hret, -⟩ := receiveBytes_frame ht
  have hchunk := exec_rxChunk_of_ok hl.started ht
  exact ⟨_, hchunk, by rw [rxReturn_rxRet, hret], hq, hesc', exec_keeps_live hl hchunk⟩

/-- In mode 2 an escaped sequence, whatever it encodes, leaves no escape pending. -/
theorem receiveBytes_escape_rxEsc {s : State} (hi : Invariants s) (hesc : s.rxEsc = false)
    (hen : s.cfg.escEn = true) (u : List Byte) :
    ∃ es t, receiveBytes (escape s.cfg u) s = .ok (es, t) ∧ t.rxEsc = false := by
  induction u generalizing s with
  | nil => exact ⟨_, s, rfl, hesc⟩
  | cons v u ih =>
    obtain ⟨e, t, hv⟩ := interpret_completes hi v
    obtain ⟨⟨-, hcfg, -⟩, -, hkept, -⟩ := interpret_frame hv
    obtain ⟨es, x, hrest, hclear⟩ := ih (interpret_keeps_invariants hi hv) (hkept.trans hesc) (hcfg ▸ hen)
    exact ⟨_, x, receiveBytes_escape_cons hv hesc (.inl hen) hrest, hclear⟩

/-- With an escape pending a wire frame loses its start to the escape, and leaves no escape pending (R117). -/
theorem receiveBytes_wireFrame_of_rxEsc {s : State} (hi : Invariants s) (hesc : s.rxEsc = true) (p : List Byte) :
    ∃ es t, receiveBytes (wireFrame s.cfg p) s = .ok (es, t) ∧ t.rxEsc = false := by
  have hen : s.cfg.escEn = true := by
    by_contra hoff
    simp [hi.escOff (by simpa using hoff)] at hesc
  obtain ⟨e, t, hstart⟩ := receiveByte_completes hi startByte
  obtain ⟨⟨-, hcfg, -⟩, -⟩ := receiveByte_frame hstart
  have hclear : t.rxEsc = false := by simpa [hesc] using receiveByte_rxEsc hi.escOff hstart
  obtain ⟨es, u, hbody, hu⟩ :=
    receiveBytes_escape_rxEsc (receiveByte_keeps_invariants hi hstart) hclear (hcfg ▸ hen) (rawBody p)
  rw [hcfg] at hbody
  exact ⟨_, u, receiveBytes_cons_ok.mpr ⟨e, t, es, hstart, hbody, rfl⟩, hu⟩

/-- Settles O47: the frame that meets a pending escape is spent on it, and the one after it finds none. -/
theorem assemblerResynchronises : Obligations.AssemblerResynchronises := by
  intro bs p q s t hl hx hmax hclear
  have hlt : Live t := exec_keeps_live hl hx
  obtain ⟨-, hcfg, -⟩ := receiverChangesOnlyItsOwn _ s t rfl hx
  rw [← hcfg] at hmax hclear ⊢
  refine ⟨fun hesc => ?_, fun hesc => ?_⟩
  · obtain ⟨u, hu, -⟩ := receiveBytes_wireFrame hlt.inv hesc hmax hclear
    obtain ⟨-, hret, -⟩ := receiveBytes_frame hu
    refine ⟨_, if t.rxState = .awaitStart then [] else [.dropAbort], exec_rxChunk_of_ok hlt.started hu, ?_, ?_⟩
    · rw [rxReturn_rxRet, hret]
      split <;> rfl
    · split <;> simp
  · obtain ⟨es, u, hp, hesc'⟩ := receiveBytes_wireFrame_of_rxEsc hlt.inv hesc p
    obtain ⟨⟨-, hcfg', -⟩, -⟩ := receiveBytes_frame hp
    obtain ⟨w, hq, -⟩ := receiveBytes_wireFrame (receiveBytes_keeps_invariants hlt.inv hp) hesc'
      (hcfg' ▸ hmax) (hcfg' ▸ hclear)
    rw [hcfg'] at hq
    have hboth := receiveBytes_append_ok hp hq
    obtain ⟨-, hret, -⟩ := receiveBytes_frame hboth
    refine ⟨_, es ++ if u.rxState = .awaitStart then [] else [.dropAbort], exec_rxChunk_of_ok hlt.started hboth, ?_⟩
    rw [rxReturn_rxRet, hret]
    split <;> simp

/-- Noise with no `0x7E` and no `0x7D` passes `AWAIT_START` without a trace (R101). -/
theorem receiveBytes_noise {s : State} (hq : s.rxState = .awaitStart) (hesc : s.rxEsc = false) {z : List Byte}
    (hz : ∀ b ∈ z, b ≠ 0x7E ∧ b ≠ 0x7D) : receiveBytes z s = .ok ([], s) := by
  induction z with
  | nil => rfl
  | cons b z ih =>
    obtain ⟨hb, hrest⟩ := List.forall_mem_cons.mp hz
    have hdata : DataClass s b := ⟨by simp [hesc], fun h => hb.2 h.2, hb.1⟩
    have hbyte := (receiveByte_of_dataClass hdata).trans (interpret_of_awaitStart hq b)
    exact receiveBytes_cons_ok.mpr ⟨_, s, [], hbyte, ih hrest, rfl⟩

/-- Settles O49: the first frame ends in `AWAIT_START` with no escape pending, the noise leaves that state, and the
second frame begins in it. -/
theorem framesFollowOneAnother : Obligations.FramesFollowOneAnother := by
  intro p q z s hl hesc hq hp hmax hclear hz
  obtain ⟨t, ht, hqt, hesct⟩ := receiveBytes_wireFrame hl.inv hesc hp (hclear.imp_right And.left)
  have hnoise := receiveBytes_append_ok ht (receiveBytes_noise hqt hesct hz)
  obtain ⟨⟨-, hcfg, -⟩, -⟩ := receiveBytes_frame ht
  obtain ⟨u, hu, -⟩ := receiveBytes_wireFrame (receiveBytes_keeps_invariants hl.inv ht) hesct (hcfg ▸ hmax)
    (hcfg ▸ hclear.imp_right And.right)
  rw [hcfg] at hu
  have hall := receiveBytes_append_ok hnoise hu
  rw [if_pos hq, if_pos hqt] at hall
  obtain ⟨-, hret, -⟩ := receiveBytes_frame hall
  exact ⟨_, exec_rxChunk_of_ok hl.started hall, by rw [rxReturn_rxRet, hret]; rfl⟩

end Sys2Proof.Machine
end

section
/-! The pure decoder of 41_rx_assembler.md R114 on an escaped sequence. -/

namespace Sys2Proof.Machine

/-- The loop reads one encoded byte and goes on with no escape pending. -/
theorem unescapeFrom_txEscBytes {cfg : Config} (hen : cfg.escEn = true) (b : Byte) (w : List Byte) :
    unescapeFrom false (txEscBytes cfg b ++ w) = b :: unescapeFrom false w := by
  cases hm : mustEscape cfg b
  case true => simp [txEscBytes_of_mustEscape hm, unescapeFrom]
  case false =>
    have hb : b ≠ escapeByte := by
      rintro rfl
      simp [mustEscape, reserved, hen] at hm
    simp [txEscBytes_of_not_mustEscape hm, unescapeFrom, hb]

/-- Settles O22: in mode 1 both are the identity, and in mode 2 each encoding is read back as its byte. -/
theorem unescapeUndoesEscape : Obligations.UnescapeUndoesEscape := by
  intro cfg u
  cases hen : cfg.escEn
  case false => exact escape_of_escEn_false hen u
  case true =>
    induction u with
    | nil => rfl
    | cons b u ih => exact (unescapeFrom_txEscBytes hen b _).trans (congrArg (b :: ·) ih)

end Sys2Proof.Machine
end

section
/-! The chunk loop of 41_rx_assembler.md R112, R113: what RX returned before makes no difference to what it does next, so
a chunk is the loop of `RX.BYTE`, and may be cut anywhere. -/

namespace Sys2Proof.Machine

theorem interpret_withRxRet {v : Byte} {s t : State} {e : Event} (l : List RxReturn)
    (h : interpret v s = .ok (e, t)) :
    interpret v { s with rxRet := l } = .ok (e, { t with rxRet := l }) := by
  rcases interpret_cases h with ⟨hq, rfl, rfl⟩ | ⟨hq, rfl, rfl⟩ | ⟨hq, ho, rfl, rfl⟩ | ⟨hq, ho, rfl, rfl⟩ |
    ⟨hq, hcnt, rfl, rfl⟩ | ⟨hq, hm, hlen, rfl, rfl⟩ | ⟨hq, hm, rfl, rfl⟩
  · exact interpret_of_awaitStart (s := { t with rxRet := l }) hq v
  · exact interpret_of_lenMsb (s := { s with rxRet := l }) hq v
  · simp [interpret_of_lenLsb (s := { s with rxRet := l }) hq, ho]
  · simp [interpret_of_lenLsb (s := { s with rxRet := l }) hq, ho]
  · exact interpret_of_payload (s := { s with rxRet := l }) hq hcnt v
  · simp [interpret_of_checksum (s := { s with rxRet := l }) hq fun _ => hlen, hm]
  · simp [interpret_of_checksum (s := { s with rxRet := l }) (v := v) hq (by simp [hm]), hm]

theorem receiveByte_withRxRet {b : Byte} {s t : State} {e : Event} (l : List RxReturn)
    (h : receiveByte b s = .ok (e, t)) : receiveByte b { s with rxRet := l } = .ok (e, { t with rxRet := l }) := by
  rw [receiveByte_eq] at h ⊢
  split at h
  · next hpend => exact (if_pos hpend).trans (interpret_withRxRet l h)
  next hpend =>
  refine (if_neg hpend).trans ?_
  split at h
  · next hintro =>
    cases h
    exact if_pos hintro
  next hintro =>
  refine (if_neg hintro).trans ?_
  split at h
  · next hstart =>
    rw [startDetected_eq] at h
    cases h
    rw [if_pos hstart, startDetected_eq]
    rfl
  · next hstart => exact (if_neg hstart).trans (interpret_withRxRet l h)

theorem receiveBytes_withRxRet {bs : List Byte} {s t : State} {es : List Event} (l : List RxReturn)
    (h : receiveBytes bs s = .ok (es, t)) :
    receiveBytes bs { s with rxRet := l } = .ok (es, { t with rxRet := l }) := by
  induction bs generalizing s es with
  | nil =>
    cases h
    rfl
  | cons b bs ih =>
    obtain ⟨e, u, fs, hb, hbs, hes⟩ := receiveBytes_cons_ok.mp h
    exact receiveBytes_cons_ok.mpr ⟨e, _, fs, receiveByte_withRxRet l hb, ih hbs, hes⟩

/-- The last value RX returned is the one it has just returned. -/
theorem eq_of_rxReturn_rxRet {s t : State} {r r' : RxReturn} (hret : t.rxRet = s.rxRet)
    (h : (rxReturn r t).rxRet = s.rxRet ++ [r']) : r = r' := by
  rw [rxReturn_rxRet, hret] at h
  exact List.singleton_inj.mp (List.append_cancel_left h)

/-- Settles O42: the rest of the chunk runs after the first byte as it runs after its `RX.BYTE`. -/
theorem chunkIsTheByteLoop : Obligations.ChunkIsTheByteLoop := by
  intro s hs
  refine ⟨exec_rxChunk_of_ok hs rfl, fun b bs e es t u ht hret hu hret' => ?_⟩
  obtain ⟨e', t', hb, rfl⟩ := rxEvent_next.mp (afterReset_next.mp ht).2
  obtain ⟨es', u', hbs, rfl⟩ := rxEvents_next.mp (afterReset_next.mp hu).2
  obtain ⟨-, hkept, -⟩ := receiveByte_frame hb
  obtain ⟨-, hkept', -⟩ := receiveBytes_frame hbs
  cases eq_of_rxReturn_rxRet hkept hret
  cases eq_of_rxReturn_rxRet hkept' hret'
  have hrest : receiveBytes bs t' = .ok (es, { u' with rxRet := s.rxRet }) :=
    hkept ▸ receiveBytes_withRxRet (s := rxReturn (.event e) t') t'.rxRet hbs
  exact exec_rxChunk_of_ok hs (receiveBytes_cons_ok.mpr ⟨e, t', es, hb, hrest, rfl⟩)

/-- The loop over two sequences completes only when it completes over each, one after the other. -/
theorem receiveBytes_append_cases {xs ys : List Byte} {s t : State} {gs : List Event}
    (h : receiveBytes (xs ++ ys) s = .ok (gs, t)) :
    ∃ es u fs, receiveBytes xs s = .ok (es, u) ∧ receiveBytes ys u = .ok (fs, t) ∧ gs = es ++ fs := by
  rw [receiveBytes_append] at h
  rcases hx : receiveBytes xs s with f | ⟨es, u⟩ <;> rw [hx] at h
  · cases h
  · dsimp only at h
    rcases hy : receiveBytes ys u with f | ⟨fs, w⟩ <;> rw [hy] at h
    · cases h
    · cases h
      exact ⟨es, u, fs, rfl, hy, rfl⟩

/-- Settles O44: the second chunk finds the registers and the buffer as the loop leaves them at the cut. -/
theorem fragmentationMakesNoDifference : Obligations.FragmentationMakesNoDifference := by
  intro xs ys s t h
  obtain ⟨hs, h⟩ := afterReset_next.mp h
  obtain ⟨gs, t', hr, rfl⟩ := rxEvents_next.mp h
  obtain ⟨es, u, fs, hx, hy, rfl⟩ := receiveBytes_append_cases hr
  obtain ⟨⟨hstarted, -⟩, hret, -⟩ := receiveBytes_frame hx
  obtain ⟨-, hret', -⟩ := receiveBytes_frame hr
  have hy' := receiveBytes_withRxRet (u.rxRet ++ [.chunk es]) hy
  refine ⟨rxReturn (.chunk es) u, _, es, fs, exec_rxChunk_of_ok hs hx, exec_rxChunk_of_ok (hstarted.trans hs) hy',
    by rw [rxReturn_rxRet, hret], rfl, by rw [rxReturn_rxRet, hret'], ?_, ?_⟩
  · exact ⟨rfl, rfl, rfl, rfl, rfl, rfl⟩
  · exact ⟨rfl, rfl, rfl, rfl, rfl, rfl, rfl⟩

/-- Settles O51: the state with other `XON_BYTE` and `XOFF_BYTE` gives RX the two parameters it reads. -/
theorem receiverIgnoresXonAndXoff : Obligations.ReceiverIgnoresXonAndXoff := by
  intro i s t x y hu h
  have hframe := receiverChangesOnlyItsOwn i s t hu h
  have hstarted : s.started = true := by
    rcases rxOneByte_or_rxChunk hu with hi | ⟨bs, rfl⟩
    · exact (afterReset_next.mp ((exec_rxOneByte i s hi).symm.trans h)).1
    · exact (afterReset_next.mp h).1
  have hx := exec_rx_withRxOf (s := s) (c := { s with cfg := { s.cfg with xonByte := x, xoffByte := y } }) hu hstarted
    ⟨rfl, rfl⟩ h
  have hsame := congrArg (fun u : State => { u with cfg := { s.cfg with xonByte := x, xoffByte := y } })
    (withRxOf_eq_self hframe)
  exact hx.trans (congrArg Host.Outcome.next hsame)

end Sys2Proof.Machine
end

section
/-! The rows that RX is presented with (41_rx_assembler.md R95, R110; log entry 1): each acts as `RX.BYTE` on its wire
byte or as the row of the state in force on its logical byte. -/

namespace Sys2Proof.Machine

theorem exec_eq_rxByte {i : Instr} {b : Byte} {s : State} (hi : i.rxOneByte) (h : rxCore i s = receiveByte b s) :
    exec i s = exec (.rxByte b) s := by
  rw [exec_rxOneByte i s hi, h]
  rfl

theorem exec_eq_row {i : Instr} {v : Byte} {s : State} (hi : i.rxOneByte) (q : RxState)
    (h : rxCore i s = interpret v (afterUnescape s)) : exec i s = exec (q.row v) s := by
  rw [exec_rxOneByte i s hi, h, exec_row]

theorem afterUnescape_of_escEn {s : State} (hen : s.cfg.escEn = true) :
    afterUnescape s = { s with rxEsc := false } := by
  cases hesc : s.rxEsc
  · rw [afterUnescape_of_none s (.inr hesc), ← hesc]
  · exact if_pos (by simp [escapePending, hen, hesc])

/-- With escaping on a row acts as with no escape pending (log entry 17). -/
theorem exec_row_of_escEn {s : State} (hen : s.cfg.escEn = true) (q : RxState) (v : Byte) :
    exec (q.row v) s = exec (q.row v) { s with rxEsc := false } := by
  rw [exec_row, exec_row, afterUnescape_of_escEn hen, afterUnescape_of_none _ (.inr rfl)]
  rfl

/-- Settles O29: each row runs the stages its byte runs. -/
theorem rowsActAsTheByteTheyPresent : Obligations.RowsActAsTheByteTheyPresent := by
  intro b s
  refine ⟨⟨?_, ?_, ?_, ?_, ?_, ?_⟩, ⟨?_, ?_, ?_, ?_, ?_, ?_, ?_, ?_⟩, fun hen => exec_row_of_escEn hen _ b⟩
  iterate 6 exact exec_eq_rxByte ⟨rfl, by simp⟩ rfl
  iterate 8 exact exec_eq_row ⟨rfl, by simp⟩ _ rfl

/-- Settles O27: with an escape pending the first stage clears it and hands the byte to the third. -/
theorem escapedByteIsData : Obligations.EscapedByteIsData := by
  intro b s hen hesc
  have hbyte : receiveByte b s = interpret (b ^^^ 0x20) { s with rxEsc := false } :=
    (receiveByte_eq b s).trans (if_pos ⟨hen, hesc⟩)
  have hrow : exec (.rxByte b) s = exec (s.rxState.row (b ^^^ 0x20)) { s with rxEsc := false } := by
    rw [exec_row, afterUnescape_of_none _ (.inr rfl), ← hbyte]
    rfl
  exact ⟨hrow, (exec_eq_rxByte ⟨rfl, by simp⟩ rfl).trans hrow⟩

theorem exec_rxByte_of_ok {b : Byte} {s t : State} {e : Event} (hs : s.started = true)
    (h : receiveByte b s = .ok (e, t)) : exec (.rxByte b) s = .next (rxReturn (.event e) t) :=
  exec_rxOneByte_of_ok hs ⟨rfl, by simp⟩ h

/-- Settles O26: the introducer is consumed by the first stage. -/
theorem escapeIntroducerConsumed : Obligations.EscapeIntroducerConsumed := by
  intro s hs hen hesc
  have hbyte : receiveByte 0x7D s = .ok (.none, { s with rxEsc := true }) := by
    rw [receiveByte_eq, if_neg (by simp [hesc]), if_pos ⟨hen, rfl⟩]
  have hx := exec_rxByte_of_ok hs hbyte
  exact ⟨hx, (exec_eq_rxByte ⟨rfl, by simp⟩ rfl).trans hx⟩

/-- Settles O30: with no escape pending the byte reaches the second stage, which finds a start. -/
theorem startBeginsAFrame : Obligations.StartBeginsAFrame := by
  rintro s - hs rfl hnone
  have hpend : ¬ (s.cfg.escEn = true ∧ s.rxEsc = true) := by
    rcases hnone with h | h <;> simp [h]
  have hbyte : receiveByte 0x7E s = .ok (if s.rxState = .awaitStart then .none else .dropAbort, startFrame s) := by
    rw [receiveByte_eq, if_neg hpend, if_neg (by simp), if_pos (by rfl), startDetected_eq]
  have hx := exec_rxByte_of_ok hs hbyte
  exact ⟨hx, (exec_eq_rxByte ⟨rfl, by simp⟩ rfl).trans hx, (exec_eq_rxByte ⟨rfl, by simp⟩ rfl).trans hx⟩

/-- With no escape pending a row is the state interpretation of its byte (R110). -/
theorem exec_row_of_none {s : State} (hs : s.started = true) (hnone : s.cfg.escEn = false ∨ s.rxEsc = false)
    (q : RxState) (v : Byte) : exec (q.row v) s = rxEvent (interpret v s) := by
  rw [exec_row, afterReset_eq hs, afterUnescape_of_none s hnone]

/-- Settles O31: a discarded byte leaves `AWAIT_START` as it is. -/
theorem awaitStartDiscards : Obligations.AwaitStartDiscards := by
  intro v s hs hq hnone
  have hdiscard := interpret_of_awaitStart hq v
  have hrow : exec (.awaitStart v) s = rxEvent (interpret v s) := exec_row_of_none hs hnone .awaitStart v
  refine ⟨by rw [hrow, hdiscard]; rfl, fun hdata => ?_⟩
  have hx := exec_rxByte_of_ok hs ((receiveByte_of_dataClass hdata).trans hdiscard)
  exact ⟨hx, (exec_eq_rxByte ⟨rfl, by simp⟩ rfl).trans hx⟩

/-- Settles O32: the row is the interpretation of its byte, which puts the high byte in front of a zero low byte. -/
theorem lengthHighByteTaken : Obligations.LengthHighByteTaken := by
  intro v s hs hq hnone
  have hrow : exec (.lenMsb v) s = rxEvent (interpret v s) := exec_row_of_none hs hnone .lenMsb v
  rw [hrow, interpret_of_lenMsb hq]
  rfl

/-- Settles O33: the length completed is the one given, and `MAX_LEN` decides about it. -/
theorem lengthLowByteDecides : Obligations.LengthLowByteDecides := by
  intro v s n hs hq hnone hn
  obtain rfl : setLo s.rxLen v = n := BitVec.eq_of_toNat_eq ((setLo_toNat s.rxLen v).trans hn.symm)
  have hrow : exec (.lenLsb v) s = rxEvent (interpret v s) := exec_row_of_none hs hnone .lenLsb v
  rw [interpret_of_lenLsb hq] at hrow
  refine ⟨fun hlong => ?_, fun hfits => ?_⟩
  · have hover : overlen s.cfg (setLo s.rxLen v) = true := by simpa [overlen] using hlong
    simp only [hover, if_true] at hrow
    exact ⟨hrow, (exec_eq_row ⟨rfl, by simp⟩ .lenLsb rfl).trans hrow⟩
  · have hover : overlen s.cfg (setLo s.rxLen v) = false := by simpa [overlen] using hfits
    simp only [hover, Bool.false_eq_true, if_false] at hrow
    exact hrow

/-- Settles O34: the buffer after the write is the one asked for, and a store past the buffer is the fault of
`memWrite`. -/
theorem payloadByteStored : Obligations.PayloadByteStored := by
  intro v s hs hq hw hnone
  have hrow : exec (.payload v) s = rxEvent (interpret v s) := exec_row_of_none hs hnone .payload v
  refine ⟨fun hroom => ?_, fun hfull => ?_⟩
  · refine ⟨s.rxBuf.write s.rxCnt.toNat v, Memory.wf_write _ _ _ hw, Memory.read_write_self _ _ _ hw,
      fun a ha => Memory.read_write_of_ne _ v ha, ?_⟩
    rw [hrow, interpret_of_payload hq hroom, ← hq]
    rfl
  · have hfault : memWrite s.rxCnt.toNat v s = .error (.rxBufIndex s.rxCnt.toNat) := if_neg hfull.not_gt
    rw [hrow]
    simp only [interpret, hq, onPayload, hfault, rxEvent]

theorem sumMatches_iff {sum v : Byte} : sumMatches sum v = true ↔ (sum.toNat + v.toNat) % 256 = 255 :=
  beq_iff_eq

/-- Settles O35: the sum decides, and a read-out past the buffer is the fault of `memRead`. -/
theorem checksumByteDecides : Obligations.ChecksumByteDecides := by
  intro v s hs hq hnone
  have hrow : exec (.checksum v) s = rxEvent (interpret v s) := exec_row_of_none hs hnone .checksum v
  simp only [ne_eq, ← sumMatches_iff]
  refine ⟨fun hm hlen => ⟨?_, ?_⟩, fun hm hlong => ?_, fun hm => ⟨?_, ?_⟩⟩
  · rw [hrow, interpret_of_checksum hq fun _ => hlen, if_pos hm]
    rfl
  · exact exec_eq_row ⟨rfl, by simp⟩ .checksum rfl
  · have hfault : memRead s.rxLen.toNat s = .error (.rxBufIndex s.cfg.maxLen) := if_neg hlong.not_ge
    rw [hrow]
    simp only [interpret, hq, onChecksum, hm, if_true, hfault, rxEvent]
  · rw [hrow, interpret_of_checksum hq fun hm' => absurd hm' hm, if_neg hm]
    rfl
  · exact exec_eq_row ⟨rfl, by simp⟩ .checksum rfl

end Sys2Proof.Machine
end

section
/-! The ways into `LEN_MSB` and `AWAIT_START` (41_rx_assembler.md R110, the closing sentence). -/

namespace Sys2Proof.Machine

/-- In `s` the event `e` ends a frame: the checksum decides about it, or its length is refused (R103, R107). -/
def EndsFrame (s : State) (e : Event) : Prop :=
  (s.rxState = .checksum ∧ ((∃ p, e = .frame p) ∨ e = .dropChecksum)) ∨ (s.rxState = .lenLsb ∧ e = .dropOverlen)

/-- The state interpretation never begins a frame, and enters `AWAIT_START` only when a frame ends. -/
theorem interpret_enters {v : Byte} {s t : State} {e : Event} (h : interpret v s = .ok (e, t)) :
    (t.rxState = .lenMsb → s.rxState = .lenMsb) ∧
      (t.rxState = .awaitStart → s.rxState ≠ .awaitStart → EndsFrame s e) := by
  rcases interpret_cases h with ⟨hq, -, rfl⟩ | ⟨hq, -, rfl⟩ | ⟨hq, -, rfl, rfl⟩ | ⟨hq, -, -, rfl⟩ |
    ⟨hq, -, -, rfl⟩ | ⟨hq, -, -, rfl, rfl⟩ | ⟨hq, -, rfl, rfl⟩
  · exact ⟨id, fun ht hs => absurd ht hs⟩
  · simp
  · exact ⟨by simp, fun _ _ => .inr ⟨hq, rfl⟩⟩
  · dsimp only
    split <;> simp
  · rw [countPayload_rxState]
    split <;> simp [hq]
  · exact ⟨by simp, fun _ _ => .inl ⟨hq, .inl ⟨_, rfl⟩⟩⟩
  · exact ⟨by simp, fun _ _ => .inl ⟨hq, .inr rfl⟩⟩

/-- Of the three stages only the second begins a frame, and only the third ends one. -/
theorem receiveByte_enters {b : Byte} {s t : State} {e : Event} (h : receiveByte b s = .ok (e, t)) :
    (t.rxState = .lenMsb → s.rxState ≠ .lenMsb → b = 0x7E ∧ (s.cfg.escEn = false ∨ s.rxEsc = false)) ∧
      (t.rxState = .awaitStart → s.rxState ≠ .awaitStart → EndsFrame s e) := by
  rw [receiveByte_eq] at h
  split at h
  · obtain ⟨hbegin, hend⟩ := interpret_enters h
    exact ⟨fun ht hs => absurd (hbegin ht) hs, hend⟩
  next hpend =>
  split at h
  · cases h
    exact ⟨fun ht hs => absurd ht hs, fun ht hs => absurd ht hs⟩
  split at h
  · next hstart =>
    rw [startDetected_eq] at h
    cases h
    refine ⟨fun _ _ => ⟨hstart, ?_⟩, by simp⟩
    simpa [imp_iff_not_or] using hpend
  · obtain ⟨hbegin, hend⟩ := interpret_enters h
    exact ⟨fun ht hs => absurd (hbegin ht) hs, hend⟩

/-- Settles O40: the event returned is the one the stages give. -/
theorem waysIntoLenMsbAndAwaitStart : Obligations.WaysIntoLenMsbAndAwaitStart := by
  intro b s t h
  obtain ⟨e, u, hr, rfl⟩ := rxEvent_next.mp (afterReset_next.mp h).2
  obtain ⟨hbegin, hend⟩ := receiveByte_enters hr
  obtain ⟨-, hret, -⟩ := receiveByte_frame hr
  refine ⟨hbegin, fun ht hs => ?_⟩
  rw [rxReturn_rxRet, hret]
  rcases hend ht hs with ⟨hq, ⟨p, rfl⟩ | rfl⟩ | ⟨hq, rfl⟩
  · exact .inl ⟨hq, .inl ⟨p, rfl⟩⟩
  · exact .inl ⟨hq, .inr rfl⟩
  · exact .inr ⟨hq, rfl⟩

end Sys2Proof.Machine
end

section
/-! The frame-id allocator and its cycle (42_frame_id.md R125, R126). -/

namespace Sys2Proof.Machine

theorem exec_fidAlloc {s : State} (hs : s.started = true) :
    exec .fidAlloc s = .next { s with fidCtr := nextFid s.fidCtr, fidRet := s.fidRet ++ [s.fidCtr] } :=
  afterReset_eq hs _

/-- Settles O52: the counter after the allocation is `nextFid` of the one before it. -/
theorem frameIdHandedOut : Obligations.FrameIdHandedOut := fun s hs =>
  ⟨nextFid s.fidCtr, rfl, exec_fidAlloc hs, fun hlo hhi => nextFid_range ⟨hlo, hhi⟩⟩

/-- A step on a request for an id is the allocation, with the request taken off. -/
theorem step_of_fidAlloc {s : State} {rest : List Request} (hs : s.started = true)
    (hp : s.pending = .host .fidAlloc :: rest) :
    step s =
      .next { s with pending := rest, fidCtr := nextFid s.fidCtr, fidRet := s.fidRet ++ [s.fidCtr] } :=
  (step_of_decode_ok hp (decode_host s.cfg s.rxEsc rfl rfl)).trans
    (exec_fidAlloc (s := { s with pending := rest }) hs)

/-- A run that allocates `k` times returns the counter and its successors, and does nothing else. -/
theorem run_fidAllocs {s : State} {k : Nat} (hs : s.started = true)
    (hp : s.pending = List.replicate k (.host .fidAlloc)) :
    core.run k s =
      .next { s with
        pending := []
        fidCtr := nextFid^[k] s.fidCtr
        fidRet := s.fidRet ++ List.iterate nextFid s.fidCtr k } := by
  induction k generalizing s with
  | zero =>
    cases s
    cases hp
    simp [Host.Core.run]
  | succ k ih =>
    refine (run_succ_of_next core k s _ (step_of_fidAlloc hs hp)).trans ((ih ?_ ?_).trans ?_)
    · exact hs
    · rfl
    · simp [List.iterate]

/-- The ids 1..254 in their cycle, from position 0 (R126). -/
def idAt (n : Nat) : Byte := BitVec.ofNat 8 (n % 254 + 1)

theorem idAt_toNat (n : Nat) : (idAt n).toNat = n % 254 + 1 := by
  rw [idAt, BitVec.toNat_ofNat]
  omega

theorem nextFid_idAt (n : Nat) : nextFid (idAt n) = idAt (n + 1) := by
  have hn := idAt_toNat n
  have hnext := idAt_toNat (n + 1)
  unfold nextFid
  split
  · bv_omega
  · bv_omega

theorem nextFid_iterate_idAt (n j : Nat) : nextFid^[j] (idAt n) = idAt (n + j) := by
  induction j generalizing n with
  | zero => rfl
  | succ j ih => rw [Function.iterate_succ_apply, nextFid_idAt, ih, Nat.add_right_comm, Nat.add_assoc]

/-- A seed in range stands at its own place of the cycle. -/
theorem fidSeed_eq_idAt {cfg : Config} (h : cfg.valid = true) :
    BitVec.ofNat 8 cfg.fidSeed = idAt (cfg.fidSeed - 1) := by
  simp only [Config.valid, Bool.and_eq_true, decide_eq_true_eq] at h
  rw [idAt]
  congr 1
  omega

theorem exec_reset_next {cfg : Config} {s t : State} (h : exec (.reset cfg) s = .next t) :
    cfg.valid = true ∧
      t = { idleRx s with started := true, cfg := cfg, fidCtr := BitVec.ofNat 8 cfg.fidSeed } := by
  simp only [exec, execReset] at h
  split at h
  · next hv =>
    cases h
    exact ⟨hv, rfl⟩
  · cases h

/-- Settles O53: the run allocates from the seed on, and each allocation moves one place in the cycle. -/
theorem frameIdsCycle : Obligations.FrameIdsCycle := by
  intro cfg s t k h
  obtain ⟨hv, rfl⟩ := exec_reset_next h
  refine ⟨_, run_fidAllocs rfl rfl, ?_⟩
  simp only [fidSeed_eq_idAt hv, ← List.range_map_iterate, nextFid_iterate_idAt]
  rfl

end Sys2Proof.Machine
end

section
/-! The control operations `RESET` and `RX.FLUSH`, and that the configuration is `RESET`'s alone (43_control.md R132 to
R136). -/

namespace Sys2Proof.Machine

theorem config_valid_iff {cfg : Config} :
    cfg.valid = true ↔ 1 ≤ cfg.maxLen ∧ cfg.maxLen ≤ 65535 ∧ 1 ≤ cfg.fidSeed ∧ cfg.fidSeed ≤ 254 := by
  simp only [Config.valid, Bool.and_eq_true, decide_eq_true_eq, and_assoc]

theorem exec_reset_of_valid {cfg : Config} (hv : cfg.valid = true) (s : State) :
    exec (.reset cfg) s =
      .next { idleRx s with started := true, cfg := cfg, fidCtr := BitVec.ofNat 8 cfg.fidSeed } :=
  if_pos hv

theorem exec_reset_of_not_valid {cfg : Config} (hv : ¬ cfg.valid = true) (s : State) :
    exec (.reset cfg) s = .refused .configOutOfRange :=
  if_neg hv

theorem exec_rxFlush {s : State} (hs : s.started = true) : exec .rxFlush s = .next (idleRx s) :=
  afterReset_eq hs _

/-- Settles O10, unit by unit: TX, `FID.ALLOC` and `RX.FLUSH` write neither field, and RX changes only its own. -/
theorem onlyResetChangesConfiguration : Obligations.OnlyResetChangesConfiguration := by
  intro i s t h hne
  rcases exec_cases h with ⟨r, w, rfl⟩ | hu | ⟨-, rfl⟩ | ⟨cfg, rfl, -, -⟩ | ⟨-, rfl⟩
  · exact ⟨rfl, rfl⟩
  · obtain ⟨hstarted, hcfg, -⟩ := receiverChangesOnlyItsOwn i s t hu h
    exact ⟨hcfg, hstarted⟩
  · exact ⟨rfl, rfl⟩
  · exact absurd rfl (hne cfg)
  · exact ⟨rfl, rfl⟩

/-- Settles O7: the ranges given are the test that `RESET` makes. -/
theorem resetInstallsConfiguration : Obligations.ResetInstallsConfiguration := by
  intro cfg s
  rw [← config_valid_iff]
  exact ⟨fun hv => exec_reset_of_valid hv s, fun hv => exec_reset_of_not_valid hv s⟩

/-- Settles O8: the state asked for is `idleRx` of the one before, and a `RESET` has been issued. -/
theorem flushIdlesTheAssembler : Obligations.FlushIdlesTheAssembler :=
  fun _ hs => exec_rxFlush hs

end Sys2Proof.Machine
end

section
/-! The events of RX and TX and the state after each (60_exceptions.md R142, R145, R150). -/

namespace Sys2Proof.Machine

/-- The logical byte that the wire byte `b` becomes in `s` (41_rx_assembler.md R96). -/
def logicalOf (s : State) (b : Byte) : Byte := if s.cfg.escEn = true ∧ s.rxEsc = true then b ^^^ 0x20 else b

/-- An introducer, a start, or a logical byte that the state interprets (R95); after the last two no escape is
pending. -/
theorem receiveByte_cases {b : Byte} {s t : State} {e : Event} (h : receiveByte b s = .ok (e, t)) :
    (e = .none ∧ t = { s with rxEsc := true }) ∨
      (e = (if s.rxState = .awaitStart then .none else .dropAbort) ∧ t = startFrame (afterUnescape s)) ∨
      interpret (logicalOf s b) (afterUnescape s) = .ok (e, t) := by
  rw [receiveByte_eq] at h
  split at h
  · next hpend => exact .inr (.inr (by rwa [logicalOf, if_pos hpend, afterUnescape_of_escEn hpend.1]))
  next hpend =>
  have hkept : afterUnescape s = s := afterUnescape_of_none s (by simpa [imp_iff_not_or] using hpend)
  split at h
  · cases h
    exact .inl ⟨rfl, rfl⟩
  split at h
  · rw [startDetected_eq] at h
    cases h
    exact .inr (.inl ⟨rfl, by rw [hkept]⟩)
  · exact .inr (.inr (by rwa [logicalOf, if_neg hpend, hkept]))

/-- In a state of a run the stages after the first find no escape pending (R30 item 2). -/
theorem afterUnescape_rxEsc_of_invariants {s : State} (hi : Invariants s) : (afterUnescape s).rxEsc = false := by
  cases hen : s.cfg.escEn
  · simp [hi.escOff hen]
  · simp [hen]

/-- The event that a one-byte instruction of RX returns is the one its stages give. -/
theorem exec_rxOneByte_event {i : Instr} {s t : State} {e : Event} (hi : i.rxOneByte) (h : exec i s = .next t)
    (hret : t.rxRet = s.rxRet ++ [.event e]) : ∃ u, rxCore i s = .ok (e, u) ∧ t = rxReturn (.event e) u := by
  rw [exec_rxOneByte i s hi, afterReset_next, rxEvent_next] at h
  obtain ⟨-, e', u, hr, rfl⟩ := h
  have hkept : u.rxRet = s.rxRet := by
    rcases rxCore_cases hi with ⟨b, hb⟩ | ⟨v, hv⟩
    · exact (receiveByte_frame ((hb s).symm.trans hr)).2.1
    · simpa using (interpret_frame ((hv s).symm.trans hr)).2.1
  cases eq_of_rxReturn_rxRet hkept hret
  exact ⟨u, hr, rfl⟩

/-- What R150 lists with each event of RX: `s` is the state before the byte that raises it, `t` the state after it. -/
def StateAfter (s t : State) : Event → Prop
  | .frame p => t.rxState = .awaitStart ∧ t.rxEsc = false ∧ t.rxLen = s.rxLen ∧ t.rxCnt = s.rxCnt ∧
      t.rxSum = s.rxSum ∧ t.rxBuf = s.rxBuf ∧ p = s.rxBuf.take s.rxLen.toNat
  | .dropChecksum => t.rxState = .awaitStart ∧ t.rxEsc = false ∧ t.rxLen = s.rxLen ∧ t.rxCnt = s.rxCnt ∧
      t.rxSum = s.rxSum ∧ t.rxBuf = s.rxBuf
  | .dropOverlen => t.rxState = .awaitStart ∧ t.rxEsc = false ∧ t.cfg.maxLen < t.rxLen.toNat ∧ t.rxCnt = 0 ∧
      t.rxSum = 0 ∧ t.rxBuf = s.rxBuf
  | .dropAbort => t.rxState = .lenMsb ∧ t.rxEsc = false ∧ t.rxLen = 0 ∧ t.rxCnt = 0 ∧ t.rxSum = 0 ∧
      t.rxBuf = s.rxBuf
  | .none | .txRefused _ => True

theorem interpret_stateAfter {v : Byte} {s t : State} {e : Event} (hi : Invariants s) (hesc : s.rxEsc = false)
    (h : interpret v s = .ok (e, t)) : StateAfter s t e := by
  rcases interpret_cases h with ⟨-, rfl, -⟩ | ⟨-, rfl, -⟩ | ⟨hq, hover, rfl, rfl⟩ | ⟨-, -, rfl, -⟩ |
    ⟨-, -, rfl, -⟩ | ⟨-, -, -, rfl, rfl⟩ | ⟨-, -, rfl, rfl⟩
  case inr.inr.inl =>
    obtain ⟨-, hcnt, hsum⟩ := hi.lenLsb hq
    exact ⟨rfl, hesc, of_decide_eq_true hover, hcnt, hsum, rfl⟩
  case inr.inr.inr.inr.inr.inl => exact ⟨rfl, hesc, rfl, rfl, rfl, rfl, rfl⟩
  case inr.inr.inr.inr.inr.inr => exact ⟨rfl, hesc, rfl, rfl, rfl, rfl⟩
  all_goals trivial

/-- Of the state before the byte `StateAfter` reads only what the unescape stage leaves alone. -/
theorem stateAfter_afterUnescape {s t : State} {e : Event} : StateAfter (afterUnescape s) t e ↔ StateAfter s t e := by
  cases e <;> simp [StateAfter]

theorem receiveByte_stateAfter {b : Byte} {s t : State} {e : Event} (hi : Invariants s)
    (h : receiveByte b s = .ok (e, t)) : StateAfter s t e := by
  have hesc := afterUnescape_rxEsc_of_invariants hi
  rcases receiveByte_cases h with ⟨rfl, -⟩ | ⟨rfl, rfl⟩ | hv
  · trivial
  · split
    · trivial
    · exact ⟨rfl, hesc, rfl, rfl, rfl, afterUnescape_rxBuf s⟩
  · exact stateAfter_afterUnescape.mp (interpret_stateAfter (invariants_afterUnescape hi) hesc hv)

/-- Settles O37: the clause about an event is `StateAfter` of that event. -/
theorem stateAfterEachEvent : Obligations.StateAfterEachEvent := by
  intro b s t e hl h hret
  obtain ⟨u, hr, rfl⟩ := exec_rxOneByte_event ⟨rfl, by simp⟩ h hret
  have hafter : StateAfter s u e := receiveByte_stateAfter hl.inv hr
  refine ⟨fun p he => ?_, fun he => ?_, fun he => ?_, fun he => ?_⟩
  all_goals
    subst he
    exact hafter

/-- A frame is delivered in state `CHECKSUM` only: the buffer up to the length is the payload, and the byte that ends
the frame is its checksum (R107, R142). -/
theorem interpret_delivers {v : Byte} {p : List Byte} {s t : State} (hi : Invariants s)
    (h : interpret v s = .ok (.frame p, t)) : s.rxState = .checksum ∧ p.length = s.rxLen.toNat ∧ v = cksum p := by
  rcases interpret_cases h with ⟨-, he, -⟩ | ⟨-, he, -⟩ | ⟨-, -, he, -⟩ | ⟨-, -, he, -⟩ | ⟨-, -, he, -⟩ |
    ⟨hq, hm, -, he, -⟩ | ⟨-, -, he, -⟩ <;> cases he
  obtain ⟨-, hcnt⟩ := hi.checksum hq
  have hsum : s.rxSum = BitVec.ofNat 8 (sumBytes (s.rxBuf.take s.rxLen.toNat)) := hcnt ▸ hi.sum (.inr hq)
  refine ⟨hq, Memory.length_take _ _, (sumBytes_add_mod_eq_iff _ v).mp ?_⟩
  simpa [hsum] using sumMatches_iff.mp hm

/-- Settles O39: neither an introducer nor a start delivers a frame, so the state interpretation does. -/
theorem deliveredPayloadIsVerified : Obligations.DeliveredPayloadIsVerified := by
  rintro b v p s t hl h hret rfl
  obtain ⟨u, hr, -⟩ := exec_rxOneByte_event ⟨rfl, by simp⟩ h hret
  rcases receiveByte_cases hr with ⟨he, -⟩ | ⟨he, -⟩ | hv
  · cases he
  · split at he <;> cases he
  · obtain ⟨hq, hlen, hck⟩ := interpret_delivers (invariants_afterUnescape hl.inv) hv
    simp only [afterUnescape_rxState, afterUnescape_rxLen] at hq hlen
    exact ⟨hq, hlen, (sumBytes_add_mod_eq_iff p _).mpr hck, hck⟩

/-- No length that two bytes can declare is above 65535. -/
theorem interpret_ne_dropOverlen {s : State} (hmax : s.cfg.maxLen = 65535) (v : Byte) (t : State) :
    interpret v s ≠ .ok (.dropOverlen, t) := by
  intro h
  rcases interpret_cases h with ⟨-, he, -⟩ | ⟨-, he, -⟩ | ⟨-, hover, -, -⟩ | ⟨-, -, he, -⟩ | ⟨-, -, he, -⟩ |
    ⟨-, -, -, he, -⟩ | ⟨-, -, he, -⟩
  case inr.inr.inl =>
    have hlong : s.cfg.maxLen < (setLo s.rxLen v).toNat := of_decide_eq_true hover
    have := (setLo s.rxLen v).isLt
    omega
  all_goals cases he

theorem receiveByte_ne_dropOverlen {s : State} (hmax : s.cfg.maxLen = 65535) (b : Byte) (t : State) :
    receiveByte b s ≠ .ok (.dropOverlen, t) := by
  intro h
  rcases receiveByte_cases h with ⟨he, -⟩ | ⟨he, -⟩ | hv
  · cases he
  · split at he <;> cases he
  · exact interpret_ne_dropOverlen (by simpa using hmax) _ _ hv

/-- What a chunk reports, one of its bytes raises (R112). -/
theorem exists_receiveByte_of_mem {bs : List Byte} {s t : State} {e : Event} {es : List Event}
    (h : receiveBytes bs s = .ok (es, t)) (he : e ∈ es) :
    ∃ b u w, u.cfg = s.cfg ∧ receiveByte b u = .ok (e, w) := by
  induction bs generalizing s es with
  | nil =>
    cases h
    cases he
  | cons b bs ih =>
    obtain ⟨e', u, fs, hb, hbs, rfl⟩ := receiveBytes_cons_ok.mp h
    have hmem : e = e' ∨ e ∈ fs := by
      unfold reportIn at he
      split at he
      · exact .inr he
      · exact List.mem_cons.mp he
    rcases hmem with rfl | hfs
    · exact ⟨b, s, u, rfl, hb⟩
    · obtain ⟨c, w, x, hcfg, hc⟩ := ih hbs hfs
      obtain ⟨⟨-, hkept, -⟩, -⟩ := receiveByte_frame hb
      exact ⟨c, w, x, hcfg.trans hkept, hc⟩

/-- TX refuses nothing but a payload longer than `MAX_LEN` (40_tx_encoder.md R87). -/
theorem tooLong_of_txResult_txRefused {cfg : Config} {i : Instr} {n : Nat}
    (h : (txResult cfg i).1 = .event (.txRefused n)) :
    ∃ p, (i = .txSend p ∨ i = .evTxRefused p ∨ i = .rawFrame p) ∧ cfg.maxLen < p.length := by
  have hlong {p : List Byte} : tooLong cfg p = true → cfg.maxLen < p.length := of_decide_eq_true
  cases i
  case txSend p | evTxRefused p | rawFrame p =>
    refine ⟨p, by simp, hlong ?_⟩
    by_contra hfits
    simp [txResult, hfits] at h
  all_goals cases h

/-- Settles O41: a length of 16 bits is no larger than `MAX_LEN`, and TX refuses only what is longer. -/
theorem noLengthEventAtTheLargestMaxLen : Obligations.NoLengthEventAtTheLargestMaxLen := by
  intro i s t hmax h
  refine ⟨fun hi hret => ?_, fun bs es hi hret hmem => ?_, fun hu hfits n hret => ?_⟩
  · obtain ⟨u, hr, -⟩ := exec_rxOneByte_event hi h hret
    rcases rxCore_cases hi with ⟨b, hb⟩ | ⟨v, hv⟩
    · exact receiveByte_ne_dropOverlen hmax b u ((hb s).symm.trans hr)
    · exact interpret_ne_dropOverlen (by simpa using hmax) v u ((hv s).symm.trans hr)
  · subst hi
    obtain ⟨es', u, hr, rfl⟩ := rxEvents_next.mp (afterReset_next.mp h).2
    obtain ⟨-, hkept, -⟩ := receiveBytes_frame hr
    cases eq_of_rxReturn_rxRet hkept hret
    obtain ⟨b, w, x, hcfg, hb⟩ := exists_receiveByte_of_mem hr hmem
    exact receiveByte_ne_dropOverlen (hcfg ▸ hmax) b x hb
  · rw [exec_tx i s hu, afterReset_next] at h
    obtain ⟨-, h⟩ := h
    cases h
    have hrefused : (txResult s.cfg i).1 = .event (.txRefused n) :=
      List.singleton_inj.mp (List.append_cancel_left hret)
    obtain ⟨p, hp, hlong⟩ := tooLong_of_txResult_txRefused hrefused
    have hshort := hfits p hp
    omega

end Sys2Proof.Machine
end

section
/-! Before the first `RESET` (70_reset_and_hazards.md R170, 43_control.md R133): every other instruction is guarded by
`afterReset`. -/

namespace Sys2Proof.Machine

theorem afterReset_of_not_started {s : State} (h : s.started = false) (o : Out) :
    afterReset s o = .refused .notReset := by
  simp [afterReset, h]

theorem exec_eq_afterReset {i : Instr} (hne : ∀ cfg, i ≠ .reset cfg) (s : State) : ∃ o, exec i s = afterReset s o := by
  cases i
  case reset cfg => exact absurd rfl (hne cfg)
  all_goals exact ⟨_, rfl⟩

/-- Settles O9: what the guard would let through after a `RESET` is refused whole before it. -/
theorem nothingRunsBeforeReset : Obligations.NothingRunsBeforeReset := by
  intro i s hs hne
  obtain ⟨o, ho⟩ := exec_eq_afterReset hne s
  rw [ho, afterReset_of_not_started hs]

end Sys2Proof.Machine
end
